-- ==== Sys2Proof/Word.lean ====
section
/-! DEFINITION. The word types of the CORE: 32-bit words and 5-bit register indices (spec/00_scope.md R7, R8, R9). -/

namespace Sys2Proof

/-- A register, a data-memory word, the pc or an instruction: 32 bits.
00_scope.md R7, `XLEN` and `ILEN`. UNVERIFIED: the spec decides it itself (D1), log 1. -/
abbrev Word := BitVec 32

/-- A register number, the 5-bit fields of the formats. 10_state.md R14; every value 0..31 names a register. -/
abbrev RegIdx := BitVec 5

/-- `signed32(v)`, the two's-complement reading of a word. 00_scope.md R9. -/
def signed32 (v : Word) : Int := v.toInt

end Sys2Proof
end

