-- ==== Sys2Proof/Config.lean ====
section
/-! DEFINITION. The parameters of the hardware (spec/00_scope.md R7). None of them is a free value: the spec leaves no
result of an instruction undefined. -/

namespace Sys2Proof.Config

/-- `MEMWORDS`, the number of data-memory words; the indices are 0..255. 00_scope.md R7, 10_state.md R25. -/
def memWords : Nat := 256

/-- `PCSTEP`, the fixed pc advance. 00_scope.md R7, 40_control_datapath.md R87. -/
def pcStep : Word := 4

/-- The largest program length `N`. 00_scope.md R7: `0 <= N <= 2^30`. UNVERIFIED: the spec decides it itself (D21), log 12. -/
def maxProgram : Nat := 2 ^ 30

/-- The default of the parameter `strictFunct3`. 00_scope.md R7, 30_encoding.md R54, R57. The decoder takes the
parameter as an argument and this value is used where the host fixes the signature. UNVERIFIED: the spec decides it itself (D7), log 8. -/
def strictFunct3 : Bool := false

end Sys2Proof.Config
end

