-- ==== Sys2Proof/Syntax.lean ====
section
/-! DEFINITION. The instructions as terms: one constructor per row of spec/opcode_table.json, with every field of the
instruction's format that its mnemonic does not fix (spec/30_encoding.md R48 to R52). -/

namespace Sys2Proof

/-- The instruction layout class. 00_scope.md R11, 30_encoding.md R47. -/
inductive Format where
  | r
  | i
  | s
  | b
deriving DecidableEq, Repr

/-- The nine operation names. 00_scope.md R2, 30_encoding.md R52. -/
inductive Mnemonic where
  | add
  | sub
  | and
  | or
  | addi
  | lw
  | sw
  | beq
  | bne
deriving DecidableEq, Repr

/-- An instruction. The R format keeps `rd`, `rs1`, `rs2`; the I format `rd`, `rs1`, `imm` and the `funct3` that its
mnemonic does not fix (R49, R54); the S format `rs1`, `rs2`, `imm_hi`, `imm_lo` and `funct3` (R50, R55); the B format
`rs1`, `rs2`, `imm_hi`, `imm_lo` (R51). -/
inductive Instr where
  | add (rd rs1 rs2 : RegIdx)
  | sub (rd rs1 rs2 : RegIdx)
  | and (rd rs1 rs2 : RegIdx)
  | or (rd rs1 rs2 : RegIdx)
  | addi (rd rs1 : RegIdx) (imm : BitVec 12) (funct3 : BitVec 3)
  | lw (rd rs1 : RegIdx) (imm : BitVec 12) (funct3 : BitVec 3)
  | sw (rs1 rs2 : RegIdx) (immHi : BitVec 7) (immLo : BitVec 5) (funct3 : BitVec 3)
  | beq (rs1 rs2 : RegIdx) (immHi : BitVec 7) (immLo : BitVec 5)
  | bne (rs1 rs2 : RegIdx) (immHi : BitVec 7) (immLo : BitVec 5)
deriving DecidableEq, Repr

/-- One entry of the program `P`: a decoded instruction and the word it was decoded from, "retained for
traceability/testing". 10_state.md R26, 30_encoding.md R52. -/
structure Decoded where
  instr : Instr
  raw : Word
deriving DecidableEq, Repr

/-- The decode errors, with what each records beside the line number and the line text. 60_exceptions.md R109, R110. -/
inductive DecodeError where
  /-- The line is not exactly 32 binary characters (30_encoding.md R44). -/
  | malformedEncoding
  /-- `w[6:0]` is not in the opcode table (30_encoding.md R47); it records `w[6:0]`. -/
  | unsupportedOpcode (opcode : BitVec 7)
  /-- The funct fields are not in the table of their format (30_encoding.md R53, R56, R57); it records the opcode,
  `funct3` and, for format R, `funct7`. -/
  | unsupportedFunct (opcode : BitVec 7) (funct3 : BitVec 3) (funct7 : Option (BitVec 7))
deriving DecidableEq, Repr

end Sys2Proof
end

