-- ==== Sys2Proof/WellFormed.lean ====
section
/-! DEFINITION. Which instruction terms stand for a word of the hardware. Every field has its exact width by its type
(spec/30_encoding.md R52), so only the `funct3` that `strictFunct3` examines can be wrong (R57). -/

namespace Sys2Proof

/-- The instruction has an encoding under the parameter `strictFunct3`. With `strict = false` every term has one
(R54, R55); with `strict = true`, `addi` needs `funct3 = 000` and `lw` and `sw` need `010` (R57). -/
def Instr.wf (strict : Bool) : Instr → Bool
  | .add _ _ _ => true
  | .sub _ _ _ => true
  | .and _ _ _ => true
  | .or _ _ _ => true
  | .addi _ _ _ funct3 => !strict || funct3 == 0b000#3
  | .lw _ _ _ funct3 => !strict || funct3 == 0b010#3
  | .sw _ _ _ _ funct3 => !strict || funct3 == 0b010#3
  | .beq _ _ _ _ => true
  | .bne _ _ _ _ => true

end Sys2Proof
end

