-- ==== Sys2Proof/Decode.lean ====
section
/-! DEFINITION. The decoder and, after it, the encoder (spec/30_encoding.md). Decoding is total on any line of
characters and rejects by the name of the error (R58, R69). -/

namespace Sys2Proof

/-! ### The line and the word -/

/-- The value of a string of binary characters, most significant first. 30_encoding.md R44. -/
def binaryValue (s : List Char) : Nat :=
  s.foldl (fun n c => 2 * n + if c = '1' then 1 else 0) 0

/-- `CheckLine(s)`: a line of exactly 32 characters `'0'` and `'1'` gives the word whose bit `31 - p` is character `p`.
30_encoding.md R44, R45. -/
def wordOfLine (s : List Char) : Option Word :=
  if s.length = 32 ∧ s.all (fun c => c = '0' ∨ c = '1') then some (BitVec.ofNat 32 (binaryValue s)) else none

/-- The program line of a word: character `p` is bit `31 - p`. 00_scope.md R8. -/
def lineOfWord (w : Word) : List Char :=
  (List.range 32).map (fun p => if w.getMsbD p then '1' else '0')

/-! ### Fields of a word -/

/-- `w[6:0]`. 30_encoding.md R46. -/
def opcodeOf (w : Word) : BitVec 7 := w.extractLsb' 0 7

/-- `w[11:7]`, `rd` in the formats R and I. R48, R49. -/
def rdOf (w : Word) : RegIdx := w.extractLsb' 7 5

/-- `w[14:12]`. R48 to R51. -/
def funct3Of (w : Word) : BitVec 3 := w.extractLsb' 12 3

/-- `w[19:15]`. R48 to R51. -/
def rs1Of (w : Word) : RegIdx := w.extractLsb' 15 5

/-- `w[24:20]`, `rs2` in the formats R, S and B. R48, R50, R51. -/
def rs2Of (w : Word) : RegIdx := w.extractLsb' 20 5

/-- `w[31:25]`, `funct7` in the format R. R48. -/
def funct7Of (w : Word) : BitVec 7 := w.extractLsb' 25 7

/-- `w[31:20]`, `imm` in the format I. R49. -/
def immOf (w : Word) : BitVec 12 := w.extractLsb' 20 12

/-- `w[31:25]`, `imm_hi` in the formats S and B. R50, R51. -/
def immHiOf (w : Word) : BitVec 7 := w.extractLsb' 25 7

/-- `w[11:7]`, `imm_lo` in the formats S and B. R50, R51. -/
def immLoOf (w : Word) : BitVec 5 := w.extractLsb' 7 5

/-! ### Format and mnemonic -/

/-- The opcode table: five values, and no format for the other 123. 30_encoding.md R47, R68; 90_conflicts.md C1. -/
def formatOf (op : BitVec 7) : Option Format :=
  if op = 0b0110011#7 then some .r
  else if op = 0b0000011#7 then some .i
  else if op = 0b0010011#7 then some .i
  else if op = 0b0100011#7 then some .s
  else if op = 0b1100011#7 then some .b
  else none

/-- Format R: the mnemonic of `(funct3, funct7)`. 30_encoding.md R53. -/
def mnemonicR (funct3 : BitVec 3) (funct7 : BitVec 7) : Option Mnemonic :=
  if funct3 = 0b000#3 ∧ funct7 = 0b0000000#7 then some .add
  else if funct3 = 0b000#3 ∧ funct7 = 0b0100000#7 then some .sub
  else if funct3 = 0b111#3 ∧ funct7 = 0b0000000#7 then some .and
  else if funct3 = 0b110#3 ∧ funct7 = 0b0000000#7 then some .or
  else none

/-- Format I: the opcode alone, and `funct3` too when `strictFunct3` is set. 30_encoding.md R54, R57. -/
def mnemonicI (strict : Bool) (op : BitVec 7) (funct3 : BitVec 3) : Option Mnemonic :=
  if op = 0b0010011#7 then (if !strict ∨ funct3 = 0b000#3 then some .addi else none)
  else if op = 0b0000011#7 then (if !strict ∨ funct3 = 0b010#3 then some .lw else none)
  else none

/-- Format S: always `sw`, with `funct3` checked when `strictFunct3` is set. 30_encoding.md R55, R57. -/
def mnemonicS (strict : Bool) (funct3 : BitVec 3) : Option Mnemonic :=
  if !strict ∨ funct3 = 0b010#3 then some .sw else none

/-- Format B: the mnemonic of `funct3`. 30_encoding.md R56. -/
def mnemonicB (funct3 : BitVec 3) : Option Mnemonic :=
  if funct3 = 0b000#3 then some .beq
  else if funct3 = 0b001#3 then some .bne
  else none

/-- `Mnemonic(fmt, op, funct3, funct7)`. 30_encoding.md R58. -/
def resolveMnemonic (strict : Bool) (fmt : Format) (op : BitVec 7) (funct3 : BitVec 3) (funct7 : BitVec 7) :
    Option Mnemonic :=
  match fmt with
  | .r => mnemonicR funct3 funct7
  | .i => mnemonicI strict op funct3
  | .s => mnemonicS strict funct3
  | .b => mnemonicB funct3

/-- The instruction of a mnemonic with the fields its format takes from the word. 30_encoding.md R48 to R52. -/
def instrOf (m : Mnemonic) (w : Word) : Instr :=
  match m with
  | .add => .add (rdOf w) (rs1Of w) (rs2Of w)
  | .sub => .sub (rdOf w) (rs1Of w) (rs2Of w)
  | .and => .and (rdOf w) (rs1Of w) (rs2Of w)
  | .or => .or (rdOf w) (rs1Of w) (rs2Of w)
  | .addi => .addi (rdOf w) (rs1Of w) (immOf w) (funct3Of w)
  | .lw => .lw (rdOf w) (rs1Of w) (immOf w) (funct3Of w)
  | .sw => .sw (rs1Of w) (rs2Of w) (immHiOf w) (immLoOf w) (funct3Of w)
  | .beq => .beq (rs1Of w) (rs2Of w) (immHiOf w) (immLoOf w)
  | .bne => .bne (rs1Of w) (rs2Of w) (immHiOf w) (immLoOf w)

/-! ### Decoding -/

/-- Decoding of a 32-bit word: the opcode check, then the mnemonic. 30_encoding.md R58, R59; what an error records:
60_exceptions.md R110. -/
def decodeWord (strict : Bool) (w : Word) : Except DecodeError Instr :=
  match formatOf (opcodeOf w) with
  | none => .error (.unsupportedOpcode (opcodeOf w))
  | some fmt =>
    match resolveMnemonic strict fmt (opcodeOf w) (funct3Of w) (funct7Of w) with
    | none =>
      .error (.unsupportedFunct (opcodeOf w) (funct3Of w) (if fmt = .r then some (funct7Of w) else none))
    | some m => .ok (instrOf m w)

/-- `Decode(s)`: the line check, then the word; the result keeps the word as `raw`. 30_encoding.md R58. -/
def decodeLine (strict : Bool) (s : List Char) : Except DecodeError Decoded :=
  match wordOfLine s with
  | none => .error .malformedEncoding
  | some w =>
    match decodeWord strict w with
    | .error e => .error e
    | .ok i => .ok { instr := i, raw := w }

/-- The program line that stands for the host's number `w mod 2^nbits`, most significant bit first (30_encoding.md R44).
DESIGN CHOICE (log 17): it has `nbits` characters, but never fewer than 32, so a number given with fewer bits stands for
the 32-bit word whose upper bits are 0. The spec has no such number: a line of fewer than 32 characters is itself
malformed (R45, `wordOfLine`). -/
def tableWordLine (nbits w : Nat) : List Char :=
  (List.range (max 32 nbits)).map
    (fun p => if (w % 2 ^ nbits).testBit (max 32 nbits - 1 - p) then '1' else '0')

/-- What the decoder reads from the instruction whose bits, numbered as spec/opcode_table.json numbers them, are
`w mod 2^nbits`. The hardware stores an instruction as a line, bit 31 first (R44), with the parameter `strictFunct3`
at its default (log 8). -/
def decodeTableWord (nbits w : Nat) : Option Instr :=
  match decodeLine Config.strictFunct3 (tableWordLine nbits w) with
  | .error _ => none
  | .ok d => some d.instr

/-! ### The tagged variant: what every decoded instruction gives (30_encoding.md R52, R60) -/

/-- The mnemonic of an instruction. R52. -/
def Instr.mnemonic : Instr → Mnemonic
  | .add _ _ _ => .add
  | .sub _ _ _ => .sub
  | .and _ _ _ => .and
  | .or _ _ _ => .or
  | .addi _ _ _ _ => .addi
  | .lw _ _ _ _ => .lw
  | .sw _ _ _ _ _ => .sw
  | .beq _ _ _ _ => .beq
  | .bne _ _ _ _ => .bne

/-- The format of an instruction. R47. -/
def Instr.format : Instr → Format
  | .add _ _ _ => .r
  | .sub _ _ _ => .r
  | .and _ _ _ => .r
  | .or _ _ _ => .r
  | .addi _ _ _ _ => .i
  | .lw _ _ _ _ => .i
  | .sw _ _ _ _ _ => .s
  | .beq _ _ _ _ => .b
  | .bne _ _ _ _ => .b

/-- The opcode of an instruction. R47. -/
def Instr.opcode : Instr → BitVec 7
  | .add _ _ _ => 0b0110011#7
  | .sub _ _ _ => 0b0110011#7
  | .and _ _ _ => 0b0110011#7
  | .or _ _ _ => 0b0110011#7
  | .addi _ _ _ _ => 0b0010011#7
  | .lw _ _ _ _ => 0b0000011#7
  | .sw _ _ _ _ _ => 0b0100011#7
  | .beq _ _ _ _ => 0b1100011#7
  | .bne _ _ _ _ => 0b1100011#7

/-- `funct3`, which every format has. R48 to R51, R53, R56. -/
def Instr.funct3 : Instr → BitVec 3
  | .add _ _ _ => 0b000#3
  | .sub _ _ _ => 0b000#3
  | .and _ _ _ => 0b111#3
  | .or _ _ _ => 0b110#3
  | .addi _ _ _ funct3 => funct3
  | .lw _ _ _ funct3 => funct3
  | .sw _ _ _ _ funct3 => funct3
  | .beq _ _ _ _ => 0b000#3
  | .bne _ _ _ _ => 0b001#3

/-- `funct7`, which only the format R has. R48, R53. -/
def Instr.funct7 : Instr → Option (BitVec 7)
  | .add _ _ _ => some 0b0000000#7
  | .sub _ _ _ => some 0b0100000#7
  | .and _ _ _ => some 0b0000000#7
  | .or _ _ _ => some 0b0000000#7
  | .addi _ _ _ _ => none
  | .lw _ _ _ _ => none
  | .sw _ _ _ _ _ => none
  | .beq _ _ _ _ => none
  | .bne _ _ _ _ => none

/-- `rs1`, which every format has. R48 to R51. -/
def Instr.rs1 : Instr → RegIdx
  | .add _ rs1 _ => rs1
  | .sub _ rs1 _ => rs1
  | .and _ rs1 _ => rs1
  | .or _ rs1 _ => rs1
  | .addi _ rs1 _ _ => rs1
  | .lw _ rs1 _ _ => rs1
  | .sw rs1 _ _ _ _ => rs1
  | .beq rs1 _ _ _ => rs1
  | .bne rs1 _ _ _ => rs1

/-- `rs2`, which the formats R, S and B have. R48, R50, R51. -/
def Instr.rs2 : Instr → Option RegIdx
  | .add _ _ rs2 => some rs2
  | .sub _ _ rs2 => some rs2
  | .and _ _ rs2 => some rs2
  | .or _ _ rs2 => some rs2
  | .addi _ _ _ _ => none
  | .lw _ _ _ _ => none
  | .sw _ rs2 _ _ _ => some rs2
  | .beq _ rs2 _ _ => some rs2
  | .bne _ rs2 _ _ => some rs2

/-- `rd`, which the formats R and I have. R48, R49. -/
def Instr.rd : Instr → Option RegIdx
  | .add rd _ _ => some rd
  | .sub rd _ _ => some rd
  | .and rd _ _ => some rd
  | .or rd _ _ => some rd
  | .addi rd _ _ _ => some rd
  | .lw rd _ _ _ => some rd
  | .sw _ _ _ _ _ => none
  | .beq _ _ _ _ => none
  | .bne _ _ _ _ => none

/-- `imm`, which the format I has. R49. -/
def Instr.imm : Instr → Option (BitVec 12)
  | .addi _ _ imm _ => some imm
  | .lw _ _ imm _ => some imm
  | .add _ _ _ => none
  | .sub _ _ _ => none
  | .and _ _ _ => none
  | .or _ _ _ => none
  | .sw _ _ _ _ _ => none
  | .beq _ _ _ _ => none
  | .bne _ _ _ _ => none

/-- `imm_hi`, which the formats S and B have. R50, R51. -/
def Instr.immHi : Instr → Option (BitVec 7)
  | .sw _ _ immHi _ _ => some immHi
  | .beq _ _ immHi _ => some immHi
  | .bne _ _ immHi _ => some immHi
  | .add _ _ _ => none
  | .sub _ _ _ => none
  | .and _ _ _ => none
  | .or _ _ _ => none
  | .addi _ _ _ _ => none
  | .lw _ _ _ _ => none

/-- `imm_lo`, which the formats S and B have. R50, R51. -/
def Instr.immLo : Instr → Option (BitVec 5)
  | .sw _ _ _ immLo _ => some immLo
  | .beq _ _ _ immLo => some immLo
  | .bne _ _ _ immLo => some immLo
  | .add _ _ _ => none
  | .sub _ _ _ => none
  | .and _ _ _ => none
  | .or _ _ _ => none
  | .addi _ _ _ _ => none
  | .lw _ _ _ _ => none

/-- The output ports of the decoder unit; `none` on a port that is not driven. 30_encoding.md R60 (D17, logs 11
and 16). -/
structure DecoderPorts where
  valid : Bool
  err : Option DecodeError
  fmt : Option Format
  mnemonic : Option Mnemonic
  opcode : Option (BitVec 7)
  funct3 : Option (BitVec 3)
  funct7 : Option (BitVec 7)
  rs1 : Option RegIdx
  rs2 : Option RegIdx
  rd : Option RegIdx
  imm : Option (BitVec 12)
  immHi : Option (BitVec 7)
  immLo : Option (BitVec 5)
  raw : Option Word
deriving DecidableEq, Repr

/-- No port driven. -/
def DecoderPorts.undriven : DecoderPorts :=
  { valid := false, err := none, fmt := none, mnemonic := none, opcode := none, funct3 := none, funct7 := none,
    rs1 := none, rs2 := none, rd := none, imm := none, immHi := none, immLo := none, raw := none }

/-- `Extract(fmt, w)`, which cannot fail: the format and the fields it has are driven; "a field that its format lacks is
not driven". 30_encoding.md R48 to R51, R58, R60. -/
def DecoderPorts.driveFields (fmt : Format) (w : Word) (p : DecoderPorts) : DecoderPorts :=
  { p with
    fmt := some fmt
    funct3 := some (funct3Of w)
    funct7 := if fmt = .r then some (funct7Of w) else none
    rs1 := some (rs1Of w)
    rs2 := if fmt = .i then none else some (rs2Of w)
    rd := if fmt = .r ∨ fmt = .i then some (rdOf w) else none
    imm := if fmt = .i then some (immOf w) else none
    immHi := if fmt = .s ∨ fmt = .b then some (immHiOf w) else none
    immLo := if fmt = .s ∨ fmt = .b then some (immLoOf w) else none }

/-- The ports a word drives, whether or not it decodes: `raw` and the opcode, and the format with its fields where the
opcode has a format. 30_encoding.md R46, R58, R60. -/
def fieldPorts (w : Word) : DecoderPorts :=
  let p : DecoderPorts := { DecoderPorts.undriven with raw := some w, opcode := some (opcodeOf w) }
  match formatOf (opcodeOf w) with
  | none => p
  | some fmt => p.driveFields fmt w

/-- The decoder as a combinational unit. 30_encoding.md R60. DESIGN CHOICE (log 16), where R60 is silent: a line that is
no word drives `err` alone; a word whose opcode has no format drives no field but the opcode; `mnemonic` is not driven
when the word does not decode. -/
def decoderPorts (strict : Bool) (line : List Char) : DecoderPorts :=
  match wordOfLine line with
  | none => { DecoderPorts.undriven with err := some .malformedEncoding }
  | some w =>
    match decodeWord strict w with
    | .error e => { fieldPorts w with err := some e }
    | .ok i => { fieldPorts w with valid := true, mnemonic := some i.mnemonic }

/-! ### The opcode table of spec/opcode_table.json, as data -/

/-- One row: a word is the row's instruction when `w &&& mask = pattern` (spec/INDEX.md, "Reading opcode_table.json");
under `strictFunct3` the strict pair stands in its place. -/
structure OpcodeRow where
  mnemonic : Mnemonic
  pattern : Word
  mask : Word
  strictPattern : Word
  strictMask : Word
deriving DecidableEq, Repr

/-- The nine rows, in the table's order. -/
def opcodeTable : List OpcodeRow :=
  [⟨.add, 0x00000033#32, 0xFE00707F#32, 0x00000033#32, 0xFE00707F#32⟩,
   ⟨.sub, 0x40000033#32, 0xFE00707F#32, 0x40000033#32, 0xFE00707F#32⟩,
   ⟨.and, 0x00007033#32, 0xFE00707F#32, 0x00007033#32, 0xFE00707F#32⟩,
   ⟨.or, 0x00006033#32, 0xFE00707F#32, 0x00006033#32, 0xFE00707F#32⟩,
   ⟨.addi, 0x00000013#32, 0x0000007F#32, 0x00000013#32, 0x0000707F#32⟩,
   ⟨.lw, 0x00000003#32, 0x0000007F#32, 0x00002003#32, 0x0000707F#32⟩,
   ⟨.sw, 0x00000023#32, 0x0000007F#32, 0x00002023#32, 0x0000707F#32⟩,
   ⟨.beq, 0x00000063#32, 0x0000707F#32, 0x00000063#32, 0x0000707F#32⟩,
   ⟨.bne, 0x00001063#32, 0x0000707F#32, 0x00001063#32, 0x0000707F#32⟩]

/-- The word is the row's instruction. -/
def OpcodeRow.holds (row : OpcodeRow) (strict : Bool) (w : Word) : Bool :=
  if strict then w &&& row.strictMask == row.strictPattern else w &&& row.mask == row.pattern

/-! ### Encoding -/

/-- The word of the format R. 30_encoding.md R48. -/
def encodeR (funct7 : BitVec 7) (rs2 rs1 : RegIdx) (funct3 : BitVec 3) (rd : RegIdx) (op : BitVec 7) : Word :=
  (funct7 ++ rs2 ++ rs1 ++ funct3 ++ rd ++ op).setWidth 32

/-- The word of the format I. 30_encoding.md R49. -/
def encodeI (imm : BitVec 12) (rs1 : RegIdx) (funct3 : BitVec 3) (rd : RegIdx) (op : BitVec 7) : Word :=
  (imm ++ rs1 ++ funct3 ++ rd ++ op).setWidth 32

/-- The word of the formats S and B. 30_encoding.md R50, R51. -/
def encodeS (immHi : BitVec 7) (rs2 rs1 : RegIdx) (funct3 : BitVec 3) (immLo : BitVec 5) (op : BitVec 7) : Word :=
  (immHi ++ rs2 ++ rs1 ++ funct3 ++ immLo ++ op).setWidth 32

/-- The word of an instruction, from the encoding of each row (opcode_table.json; 30_encoding.md R48 to R57). -/
def encode : Instr → Word
  | .add rd rs1 rs2 => encodeR 0b0000000#7 rs2 rs1 0b000#3 rd 0b0110011#7
  | .sub rd rs1 rs2 => encodeR 0b0100000#7 rs2 rs1 0b000#3 rd 0b0110011#7
  | .and rd rs1 rs2 => encodeR 0b0000000#7 rs2 rs1 0b111#3 rd 0b0110011#7
  | .or rd rs1 rs2 => encodeR 0b0000000#7 rs2 rs1 0b110#3 rd 0b0110011#7
  | .addi rd rs1 imm funct3 => encodeI imm rs1 funct3 rd 0b0010011#7
  | .lw rd rs1 imm funct3 => encodeI imm rs1 funct3 rd 0b0000011#7
  | .sw rs1 rs2 immHi immLo funct3 => encodeS immHi rs2 rs1 funct3 immLo 0b0100011#7
  | .beq rs1 rs2 immHi immLo => encodeS immHi rs2 rs1 0b000#3 immLo 0b1100011#7
  | .bne rs1 rs2 immHi immLo => encodeS immHi rs2 rs1 0b001#3 immLo 0b1100011#7

end Sys2Proof
end

