-- ==== Sys2Proof/Machine/State.lean ====
section
/-! DEFINITION. The state of the CORE as plain data, the reasons a step can stop, and the state after reset
(spec/10_state.md). -/

namespace Sys2Proof.Machine

/-- What `OutOfBounds` found out of bounds. 60_exceptions.md R110. The kind `register` never arises, because every
register index is a 5-bit field (R111). -/
inductive BoundsKind where
  | memory
  | register
deriving DecidableEq, Repr

/-- The execution errors, with what each records. 60_exceptions.md R109, R110. -/
inductive ExecError where
  /-- A memory index outside 0..255: the kind, the offending index as a mathematical integer and the pc of the
  instruction. Raised by `lw` and `sw`. -/
  | outOfBounds (kind : BoundsKind) (index : Int) (pc : Word)
  /-- `pc mod 4 != 0` at fetch. -/
  | pcMisaligned (pc : Word)
  /-- `pc / 4 > N` at fetch. -/
  | pcOutOfRange (pc : Word)
deriving DecidableEq, Repr

/-- The status field. 10_state.md R27. -/
inductive Status where
  /-- The machine can take a step. -/
  | running
  /-- The fetch found the end of the program: the only normal end. -/
  | halted
  /-- A step raised an execution error. -/
  | faulted (e : ExecError)
  /-- Line `k` of the program text, counted from 0 among the non-blank lines, did not decode; the error and the text
  of the line are recorded (60_exceptions.md R110). -/
  | loadFailed (e : DecodeError) (k : Nat) (line : List Char)
deriving DecidableEq, Repr

/-- The data memory: (word index, word) pairs, indices strictly rising and below 256, no word equal to 0, which is
what an unlisted index reads as (`Memory.wf`). 10_state.md R25, R28; no byte layout: 20_memory.md R33, log 7. -/
abbrev Memory := List (Nat × Word)

/-- The architectural state. 10_state.md R13. -/
structure State where
  /-- `x[0..31]`, all writable. R14, R15. -/
  x : Vector Word 32
  /-- `mem[0..255]`. R25. -/
  mem : Memory
  /-- The byte address of the instruction to execute. R19. -/
  pc : Word
  /-- The program `P`, fixed at load. R26. -/
  program : List Decoded
  /-- The run status. R27. -/
  status : Status
deriving DecidableEq, Repr

/-- The machine right after reset with nothing loaded: registers, memory and pc are 0 (10_state.md R28, log 3), the
program is empty and the status is `Running`, as after loading the empty text (log 6). -/
def State.reset : State :=
  { x := Vector.replicate 32 0#32, mem := [], pc := 0#32, program := [], status := .running }

/-- Why the machine takes no step. 60_exceptions.md R113, R114: "no further step exists" from any of these. An error
of a step is NOT one of them: it is a next state whose status is `faulted` (40_control_datapath.md R92). -/
inductive Fault where
  /-- Raised by `step` when the status is `Halted`: the run has ended normally. Safe. Log 5. -/
  | halted
  /-- Raised by `step` when the status is `Faulted`: the run has ended in an error. Safe. Log 5. -/
  | faulted
  /-- Raised by `step` when the status is `LoadFailed`: the program never runs. Safe. Log 5. -/
  | loadFailed
deriving DecidableEq, Repr

/-- What the model refuses. -/
inductive Refusal where
  /-- Raised by `exec` for an instruction that has no meaning yet, by its mnemonic. No instruction is refused so in
  this model. Safe. -/
  | notModelled (mnemonic : String)
  /-- Raised by `loadText` for a program of more than `2^30` instructions, "which this hardware cannot hold"
  (92_eei_decisions.md D21). Safe. Log 12. -/
  | programTooLong
deriving DecidableEq, Repr

end Sys2Proof.Machine
end

