-- ==== Sys2Proof/Machine/Ops.lean ====
section
/-! DEFINITION. The named operations over registers, memory, pc and status that the meanings are written with. Raising
an error (`State.raise`) is the one shared operation for every execution error; there is no return from one
(spec/60_exceptions.md R113, R114). -/

namespace Sys2Proof.Machine

/-! ### Registers -/

/-- `x[i]`. 00_scope.md R10. -/
def State.reg (s : State) (r : RegIdx) : Word := s.x[r.toNat]

/-- `x[i] <- v`, for every `i`, `x0` included. 00_scope.md R10, 10_state.md R15. -/
def State.setReg (r : RegIdx) (v : Word) (s : State) : State := { s with x := s.x.set r.toNat v }

/-! ### Data memory -/

/-- `MemRead(a, 4)`: the listed word, and 0 at an unlisted index. 20_memory.md R32, R39. -/
def Memory.read : Memory → Nat → Word
  | [], _ => 0#32
  | (k, v) :: rest, a => if k = a then v else Memory.read rest a

/-- The memory without the word at index `a`. -/
def Memory.clear (m : Memory) (a : Nat) : Memory := m.filter (fun c => decide (c.1 ≠ a))

/-- An entry put in before the first entry of a higher index. -/
def Memory.place : Memory → Nat → Word → Memory
  | [], a, v => [(a, v)]
  | (k, u) :: rest, a, v => if a < k then (a, v) :: (k, u) :: rest else (k, u) :: Memory.place rest a v

/-- `MemWrite(a, 4, v)`, keeping the canonical form: storing 0 removes the entry. 20_memory.md R32. -/
def Memory.write (m : Memory) (a : Nat) (v : Word) : Memory :=
  if v = 0#32 then m.clear a else (m.clear a).place a v

/-- The entries from index `lo` on are strictly rising, inside the memory and not 0. -/
def Memory.wfFrom : Nat → Memory → Bool
  | _, [] => true
  | lo, (k, v) :: rest => decide (lo ≤ k) && decide (k < Config.memWords) && decide (v ≠ 0#32) && Memory.wfFrom (k + 1) rest

/-- The canonical form of a memory: equal contents are equal data. -/
def Memory.wf (m : Memory) : Bool := Memory.wfFrom 0 m

/-- `mem[a]` of a state. -/
def State.memRead (s : State) (a : Nat) : Word := s.mem.read a

/-- `mem[a] <- v` of a state. -/
def State.setMem (a : Nat) (v : Word) (s : State) : State := { s with mem := s.mem.write a v }

/-! ### Program counter -/

/-- `pc <- target`. 00_scope.md R10. -/
def State.setPc (target : Word) (s : State) : State := { s with pc := target }

/-- The pc incrementer, `(pc + 4) mod 2^32`. 40_control_datapath.md R87 (D2, log 2). -/
def pcPlus4 (pc : Word) : Word := pc + Config.pcStep

/-! ### Errors and commit -/

/-- A step ends with an execution error: the status records it and nothing else changes. 40_control_datapath.md R92,
60_exceptions.md R113. -/
def State.raise (e : ExecError) (s : State) : State := { s with status := .faulted e }

/-- What an instruction that raises no error does: at most one register write, at most one memory write, and the next
pc. 40_control_datapath.md R93, R94. -/
structure Effect where
  regWrite : Option (RegIdx × Word)
  memWrite : Option (Nat × Word)
  nextPc : Word
deriving DecidableEq, Repr

/-- The register part of a commit. -/
def State.commitReg (w : Option (RegIdx × Word)) (s : State) : State :=
  match w with
  | none => s
  | some (r, v) => s.setReg r v

/-- The memory part of a commit. -/
def State.commitMem (w : Option (Nat × Word)) (s : State) : State :=
  match w with
  | none => s
  | some (a, v) => s.setMem a v

/-- All effects of an instruction at once; their values were computed from the state before. 40_control_datapath.md
R93. -/
def State.commit (e : Effect) (s : State) : State :=
  ((s.commitReg e.regWrite).commitMem e.memWrite).setPc e.nextPc

/-- The end of a step that executed an instruction: commit its effect, or record its error and commit nothing.
40_control_datapath.md R92. -/
def State.settle (r : Except ExecError Effect) (s : State) : Host.Outcome State Fault Refusal :=
  match r with
  | .ok e => .next (s.commit e)
  | .error err => .next (s.raise err)

/-- The effect of an instruction that writes one register and goes on at pc + 4. -/
def State.regEffect (rd : RegIdx) (v : Word) (s : State) : Effect :=
  { regWrite := some (rd, v), memWrite := none, nextPc := pcPlus4 s.pc }

/-- The effect of an instruction that stores one word and goes on at pc + 4. -/
def State.memEffect (a : Nat) (v : Word) (s : State) : Effect :=
  { regWrite := none, memWrite := some (a, v), nextPc := pcPlus4 s.pc }

/-- The effect of an instruction that only moves the pc. -/
def pcEffect (target : Word) : Effect :=
  { regWrite := none, memWrite := none, nextPc := target }

/-! ### Fetch -/

/-- The outcomes of a fetch. 40_control_datapath.md R91. -/
inductive FetchResult where
  | endOfProgram
  | fault (e : ExecError)
  | instr (d : Decoded)
deriving DecidableEq, Repr

/-- `Fetch(pc)`: the alignment test, then the end of the program, then the range test. 40_control_datapath.md R91
(D4, D5, log 4); the order: 60_exceptions.md R112. -/
def fetch (program : List Decoded) (pc : Word) : FetchResult :=
  if pc.toNat % 4 ≠ 0 then .fault (.pcMisaligned pc)
  else if pc.toNat / 4 = program.length then .endOfProgram
  else
    match program[pc.toNat / 4]? with
    | none => .fault (.pcOutOfRange pc)
    | some d => .instr d

/-- The program with its entry `k` replaced by `d`; a program of fewer entries is first filled up with `d`. It serves
the host's `withFetchWord` alone (log 6). -/
def placeEntry (program : List Decoded) (k : Nat) (d : Decoded) : List Decoded :=
  program.take k ++ List.replicate (k - program.length) d ++ [d] ++ program.drop (k + 1)

/-! ### Error names and codes -/

/-- The names of the taxonomy. 60_exceptions.md R109. -/
inductive ErrorName where
  | malformedEncoding
  | unsupportedOpcode
  | unsupportedFunct
  | outOfBounds
  | pcMisaligned
  | pcOutOfRange
deriving DecidableEq, Repr

/-- The numeric code of an error. 60_exceptions.md R109 (D10, log 13). -/
def errorCode : ErrorName → Nat
  | .malformedEncoding => 1
  | .unsupportedOpcode => 2
  | .unsupportedFunct => 3
  | .outOfBounds => 4
  | .pcMisaligned => 5
  | .pcOutOfRange => 6

/-- The name of an execution error. -/
def execErrorName : ExecError → ErrorName
  | .outOfBounds _ _ _ => .outOfBounds
  | .pcMisaligned _ => .pcMisaligned
  | .pcOutOfRange _ => .pcOutOfRange

/-- The name of a decode error. -/
def decodeErrorName : DecodeError → ErrorName
  | .malformedEncoding => .malformedEncoding
  | .unsupportedOpcode _ => .unsupportedOpcode
  | .unsupportedFunct _ _ _ => .unsupportedFunct

/-- The name of the error a status records, if it records one. -/
def statusErrorName : Status → Option ErrorName
  | .running => none
  | .halted => none
  | .faulted e => some (execErrorName e)
  | .loadFailed e _ _ => some (decodeErrorName e)

end Sys2Proof.Machine
end

