-- ==== Sys2Proof/Machine/Operands.lean ====
section
/-! DEFINITION. Every operand form: the immediate resolver (spec/30_encoding.md R61 to R67), the memory index
(spec/20_memory.md R29, R31), and which registers each instruction reads and writes (spec/10_state.md R17). -/

namespace Sys2Proof.Machine

/-! ### Immediates -/

/-- `SimpleImmediate(f)`: the unsigned value of the whole field, less `2^w` when its leading bit is 1.
30_encoding.md R61; 90_conflicts.md C4. -/
def simpleImmediate {w : Nat} (f : BitVec w) : Int :=
  (f.toNat : Int) - (if f.msb then 2 ^ w else 0)

/-- `UnsignedImmediate(f)`: no sign flip. 30_encoding.md R62. -/
def unsignedImmediate {w : Nat} (f : BitVec w) : Nat := f.toNat

/-- The twelve reassembled bits `r = c[11] ‖ c[1] ‖ … ‖ c[10] ‖ 0` of `c = imm_hi ‖ imm_lo`, index positions counted
from the leading character. 30_encoding.md R65 (D12, log 10). Counted from the other end, `c[11]` is bit 0 and
`c[1..10]` are the bits 10 to 1. -/
def branchField (immHi : BitVec 7) (immLo : BitVec 5) : BitVec 12 :=
  let c : BitVec 12 := (immHi ++ immLo).setWidth 12
  (c.extractLsb' 0 1 ++ c.extractLsb' 1 10 ++ 0#1).setWidth 12

/-- `BranchImmediate(imm_hi, imm_lo)`: the reassembled field, less `2^12` when `c[0]`, the leading bit of `imm_hi`,
is 1. 30_encoding.md R65. -/
def branchImmediate (immHi : BitVec 7) (immLo : BitVec 5) : Int :=
  ((branchField immHi immLo).toNat : Int) - (if immHi.msb then 2 ^ 12 else 0)

/-- A mathematical integer stored into 32-bit state: reduced modulo `2^32`. 00_scope.md R9. -/
def toWord (v : Int) : Word := BitVec.ofInt 32 v

/-- The one operand value the immediate resolver gives an instruction. 30_encoding.md R67. -/
def resolvedImmediate : Instr → Option Int
  | .add _ _ _ => none
  | .sub _ _ _ => none
  | .and _ _ _ => none
  | .or _ _ _ => none
  | .addi _ _ imm _ => some (simpleImmediate imm)
  | .lw _ _ imm _ => some (unsignedImmediate imm : Nat)
  | .sw _ _ _ immLo _ => some (unsignedImmediate immLo : Nat)
  | .beq _ _ immHi immLo => some (branchImmediate immHi immLo)
  | .bne _ _ immHi immLo => some (branchImmediate immHi immLo)

/-! ### The memory index -/

/-- `EffIndex(base, off) = signed32(base) + floor(off / 4)`, a mathematical integer: the base is a word index and only
the offset is divided. 20_memory.md R29; 90_conflicts.md C3. -/
def effIndex (base : Word) (off : Nat) : Int := signed32 base + (off / 4 : Nat)

/-- The bounds check: an index in 0..255 is a word of the memory, any other raises `OutOfBounds` with the index and
the pc of the instruction. 20_memory.md R31, 60_exceptions.md R110. -/
def checkIndex (a : Int) (pc : Word) : Except ExecError Nat :=
  if 0 ≤ a ∧ a ≤ 255 then .ok a.toNat else .error (.outOfBounds .memory a pc)

/-- The word of memory that `lw` reads in a state, or its error. 42_load_store.md R104. -/
def State.loadIndex (s : State) (rs1 : RegIdx) (imm : BitVec 12) : Except ExecError Nat :=
  checkIndex (effIndex (s.reg rs1) (unsignedImmediate imm)) s.pc

/-- The word of memory that `sw` writes in a state, or its error: `imm_hi` takes no part. 42_load_store.md R105,
30_encoding.md R64. -/
def State.storeIndex (s : State) (rs1 : RegIdx) (immLo : BitVec 5) : Except ExecError Nat :=
  checkIndex (effIndex (s.reg rs1) (unsignedImmediate immLo)) s.pc

/-! ### Branch target -/

/-- The branch-target adder, `(pc + BranchImmediate) mod 2^32`. 40_control_datapath.md R88 (D2, log 2). -/
def branchTarget (pc : Word) (immHi : BitVec 7) (immLo : BitVec 5) : Word :=
  pc + toWord (branchImmediate immHi immLo)

/-! ### Registers read and written -/

/-- The registers an instruction reads. 10_state.md R17. -/
def registersRead : Instr → List RegIdx
  | .add _ rs1 rs2 => [rs1, rs2]
  | .sub _ rs1 rs2 => [rs1, rs2]
  | .and _ rs1 rs2 => [rs1, rs2]
  | .or _ rs1 rs2 => [rs1, rs2]
  | .addi _ rs1 _ _ => [rs1]
  | .lw _ rs1 _ _ => [rs1]
  | .sw rs1 rs2 _ _ _ => [rs1, rs2]
  | .beq rs1 rs2 _ _ => [rs1, rs2]
  | .bne rs1 rs2 _ _ => [rs1, rs2]

/-- The registers an instruction writes. 10_state.md R17. -/
def registersWritten : Instr → List RegIdx
  | .add rd _ _ => [rd]
  | .sub rd _ _ => [rd]
  | .and rd _ _ => [rd]
  | .or rd _ _ => [rd]
  | .addi rd _ _ _ => [rd]
  | .lw rd _ _ _ => [rd]
  | .sw _ _ _ _ _ => []
  | .beq _ _ _ _ => []
  | .bne _ _ _ _ => []

end Sys2Proof.Machine
end

