-- ==== Sys2Proof/Machine/Alu.lean ====
section
/-! DEFINITION. Register and immediate arithmetic: `add`, `sub`, `and`, `or`, `addi` (spec/41_alu.md R97 to R102). None
of them raises an error; all of them write `x[rd]`, `x0` included, and go on at pc + 4. -/

namespace Sys2Proof.Machine

/-- `add rd, rs1, rs2`. 41_alu.md R98. -/
def execAdd (rd rs1 rs2 : RegIdx) (s : State) : Host.Outcome State Fault Refusal :=
  s.settle (.ok (s.regEffect rd (s.reg rs1 + s.reg rs2)))

/-- `sub rd, rs1, rs2`. 41_alu.md R99. -/
def execSub (rd rs1 rs2 : RegIdx) (s : State) : Host.Outcome State Fault Refusal :=
  s.settle (.ok (s.regEffect rd (s.reg rs1 - s.reg rs2)))

/-- `and rd, rs1, rs2`. 41_alu.md R100. -/
def execAnd (rd rs1 rs2 : RegIdx) (s : State) : Host.Outcome State Fault Refusal :=
  s.settle (.ok (s.regEffect rd (s.reg rs1 &&& s.reg rs2)))

/-- `or rd, rs1, rs2`. 41_alu.md R101. -/
def execOr (rd rs1 rs2 : RegIdx) (s : State) : Host.Outcome State Fault Refusal :=
  s.settle (.ok (s.regEffect rd (s.reg rs1 ||| s.reg rs2)))

/-- `addi rd, rs1, imm`. 41_alu.md R102; `funct3` takes no part (30_encoding.md R54). -/
def execAddi (rd rs1 : RegIdx) (imm : BitVec 12) (_funct3 : BitVec 3) (s : State) :
    Host.Outcome State Fault Refusal :=
  s.settle (.ok (s.regEffect rd (s.reg rs1 + toWord (simpleImmediate imm))))

end Sys2Proof.Machine
end

