-- ==== Sys2Proof/Machine/Branch.lean ====
section
/-! DEFINITION. Conditional branches: `beq`, `bne` (spec/43_branch.md R106 to R108). They write no register and no
memory word and raise no error; the pc moves in one move to its net value (spec/40_control_datapath.md R90). -/

namespace Sys2Proof.Machine

/-- `beq rs1, rs2, off`. 43_branch.md R107. -/
def execBeq (rs1 rs2 : RegIdx) (immHi : BitVec 7) (immLo : BitVec 5) (s : State) :
    Host.Outcome State Fault Refusal :=
  s.settle (.ok (pcEffect (if s.reg rs1 = s.reg rs2 then branchTarget s.pc immHi immLo else pcPlus4 s.pc)))

/-- `bne rs1, rs2, off`. 43_branch.md R108. -/
def execBne (rs1 rs2 : RegIdx) (immHi : BitVec 7) (immLo : BitVec 5) (s : State) :
    Host.Outcome State Fault Refusal :=
  s.settle (.ok (pcEffect (if s.reg rs1 ≠ s.reg rs2 then branchTarget s.pc immHi immLo else pcPlus4 s.pc)))

end Sys2Proof.Machine
end

