-- ==== Sys2Proof/Machine/LoadStore.lean ====
section
/-! DEFINITION. Loads and stores: `lw`, `sw` (spec/42_load_store.md R103 to R105). An index outside 0..255 raises
`OutOfBounds` and commits nothing. -/

namespace Sys2Proof.Machine

/-- `lw rd, off(rs1)`. 42_load_store.md R104; `funct3` takes no part (30_encoding.md R54). -/
def execLw (rd rs1 : RegIdx) (imm : BitVec 12) (_funct3 : BitVec 3) (s : State) :
    Host.Outcome State Fault Refusal :=
  match s.loadIndex rs1 imm with
  | .error e => s.settle (.error e)
  | .ok a => s.settle (.ok (s.regEffect rd (s.memRead a)))

/-- `sw rs2, off(rs1)`. 42_load_store.md R105; `imm_hi` and `funct3` take no part (30_encoding.md R55, R64). -/
def execSw (rs1 rs2 : RegIdx) (_immHi : BitVec 7) (immLo : BitVec 5) (_funct3 : BitVec 3) (s : State) :
    Host.Outcome State Fault Refusal :=
  match s.storeIndex rs1 immLo with
  | .error e => s.settle (.error e)
  | .ok a => s.settle (.ok (s.memEffect a (s.reg rs2)))

end Sys2Proof.Machine
end

