-- ==== Sys2Proof/Machine/Dispatch.lean ====
section
/-! DEFINITION. One arm per constructor of Instr (spec/opcode_table.json), each a direct call of its meaning. -/

namespace Sys2Proof.Machine

def exec (i : Instr) (s : State) : Host.Outcome State Fault Refusal :=
  match i with
  | .add rd rs1 rs2 => Sys2Proof.Machine.execAdd rd rs1 rs2 s
  | .sub rd rs1 rs2 => Sys2Proof.Machine.execSub rd rs1 rs2 s
  | .and rd rs1 rs2 => Sys2Proof.Machine.execAnd rd rs1 rs2 s
  | .or rd rs1 rs2 => Sys2Proof.Machine.execOr rd rs1 rs2 s
  | .addi rd rs1 imm funct3 => Sys2Proof.Machine.execAddi rd rs1 imm funct3 s
  | .lw rd rs1 imm funct3 => Sys2Proof.Machine.execLw rd rs1 imm funct3 s
  | .sw rs1 rs2 immHi immLo funct3 => Sys2Proof.Machine.execSw rs1 rs2 immHi immLo funct3 s
  | .beq rs1 rs2 immHi immLo => Sys2Proof.Machine.execBeq rs1 rs2 immHi immLo s
  | .bne rs1 rs2 immHi immLo => Sys2Proof.Machine.execBne rs1 rs2 immHi immLo s

end Sys2Proof.Machine
end

