-- ==== Sys2Proof/Machine/Cycle.lean ====
section
/-! DEFINITION. The cycle that `step` runs (spec/40_control_datapath.md R92), and the placing of one instruction word
for the host. -/

namespace Sys2Proof.Machine

/-- What follows a fetch: the end of the program gives `Halted`, a fetch error gives `Faulted`, an instruction is
executed. 40_control_datapath.md R92. -/
def afterFetch (f : FetchResult) (s : State) : Host.Outcome State Fault Refusal :=
  match f with
  | .endOfProgram => .next { s with status := .halted }
  | .fault e => .next (s.raise e)
  | .instr d => exec d.instr s

/-- One step. From `Running`: fetch, then what the fetch found. From any other status no step exists.
40_control_datapath.md R92, 60_exceptions.md R113, R114 (log 5). -/
def cycle (s : State) : Host.Outcome State Fault Refusal :=
  match s.status with
  | .halted => .fault .halted
  | .faulted _ => .fault .faulted
  | .loadFailed _ _ _ => .fault .loadFailed
  | .running => afterFetch (fetch s.program s.pc) s

/-- The state with the instruction of a line placed where the next fetch looks: the status becomes `Running`, the pc
is rounded down to a multiple of 4, and the program's entry at that pc is the decoded instruction. A line that does
not decode is a program that does not load (70_reset_and_hazards.md R125): the status becomes `LoadFailed`. Log 6. -/
def State.placeLine (s : State) (line : List Char) : State :=
  match decodeLine Config.strictFunct3 line with
  | .error e => { s with program := [], status := .loadFailed e 0 line }
  | .ok d =>
    { s with
      program := placeEntry s.program (s.pc.toNat / 4) d
      pc := BitVec.ofNat 32 (4 * (s.pc.toNat / 4))
      status := .running }

end Sys2Proof.Machine
end

