-- ==== Sys2Proof/Machine/Step.lean ====
section
/-! DEFINITION. One step of the machine (spec/40_control_datapath.md R92), and the host's way of placing one
instruction word. -/

namespace Sys2Proof.Machine

/-- One step. 40_control_datapath.md R92. -/
def step (s : State) : Host.Outcome State Fault Refusal := cycle s

/-- The state with that instruction placed where `step` fetches next. Log 6. -/
def State.withFetchWord (s : State) (nbits w : Nat) : State := s.placeLine (tableWordLine nbits w)

end Sys2Proof.Machine
end

