-- ==== Sys2Proof/Machine/Flags.lean ====
section
/-! DEFINITION. The machine has no status flags and no condition codes (spec/10_state.md R21). What the source calls
"flags" is the display of the nine control lines (spec/92_eei_decisions.md D27): this file holds the control-signal
generator (spec/40_control_datapath.md R74 to R79) and the ALU's `Zero` line (R81). -/

namespace Sys2Proof.Machine

/-- The nine control lines, in the order of 40_control_datapath.md R74. Not state: 10_state.md R24. -/
structure ControlVector where
  regDst : Bool
  regWrite : Bool
  branch : Bool
  memToReg : Bool
  memRead : Bool
  memWrite : Bool
  aluSource : Bool
  aluOp1 : Bool
  aluOp0 : Bool
deriving DecidableEq, Repr

/-- The vector as `ctl[0] .. ctl[8]`. 40_control_datapath.md R74 (D20). -/
def ControlVector.lines (c : ControlVector) : List Bool :=
  [c.regDst, c.regWrite, c.branch, c.memToReg, c.memRead, c.memWrite, c.aluSource, c.aluOp1, c.aluOp0]

/-- One equation per line, a function of the format and the mnemonic only. 40_control_datapath.md R75, R76. -/
def controlOf (fmt : Format) (m : Mnemonic) : ControlVector :=
  { regDst := fmt == .r
    regWrite := fmt == .r || m == .lw || m == .addi
    branch := fmt == .b
    memToReg := m == .lw
    memRead := m == .lw
    memWrite := m == .sw
    aluSource := m == .lw || m == .addi || m == .sw
    aluOp1 := fmt == .r
    aluOp0 := fmt == .b }

/-- `Control(i)`. 40_control_datapath.md R74. -/
def controlVector (i : Instr) : ControlVector := controlOf i.format i.mnemonic

/-- The generator as a function of a word; a word that does not decode has no vector. 40_control_datapath.md R78,
R79. -/
def controlOfWord (strict : Bool) (w : Word) : Option ControlVector :=
  match decodeWord strict w with
  | .error _ => none
  | .ok i => some (controlVector i)

/-- The ALU's `Zero` output. 40_control_datapath.md R81. -/
def zeroLine (y : Word) : Bool := y == 0#32

end Sys2Proof.Machine
end

