-- ==== Sys2Proof/Machine/Datapath.lean ====
section
/-! DEFINITION. The datapath units and the step built of them (spec/40_control_datapath.md sections 2 to 4,
spec/20_memory.md R38). This structure is the spec's choice and a program cannot observe it (log 11): the meanings of
the instructions do NOT use it, and it is stated to agree with them (R96). A port that is not driven is `none`. -/

namespace Sys2Proof.Machine

/-! ### ALU -/

/-- The ALU operations. 40_control_datapath.md R80. -/
inductive AluOp where
  | add
  | sub
  | and
  | or
deriving DecidableEq, Repr

/-- The ALU outputs. 40_control_datapath.md R80. -/
structure AluOut where
  y : Word
  zero : Bool
deriving DecidableEq, Repr

/-- The ALU's result `Y`. 40_control_datapath.md R81 (D1, log 1). -/
def aluY (op : AluOp) (a b : Word) : Word :=
  match op with
  | .add => a + b
  | .sub => a - b
  | .and => a &&& b
  | .or => a ||| b

/-- The ALU. 40_control_datapath.md R81. -/
def alu (op : AluOp) (a b : Word) : AluOut := { y := aluY op a b, zero := zeroLine (aluY op a b) }

/-- The ALU operation selected by `ALUOp1`, `ALUOp0` and the funct fields; `none` for what no instruction produces.
40_control_datapath.md R82 (D15). -/
def aluControl (aluOp1 aluOp0 : Bool) (funct3 : BitVec 3) (funct7 : Option (BitVec 7)) : Option AluOp :=
  match aluOp1, aluOp0 with
  | false, false => some .add
  | false, true => some .sub
  | true, false =>
    if funct3 = 0b000#3 ∧ funct7 = some 0b0000000#7 then some .add
    else if funct3 = 0b000#3 ∧ funct7 = some 0b0100000#7 then some .sub
    else if funct3 = 0b111#3 ∧ funct7 = some 0b0000000#7 then some .and
    else if funct3 = 0b110#3 ∧ funct7 = some 0b0000000#7 then some .or
    else none
  | true, true => none

/-- The immediate input of the `B` multiplexer: the resolved immediate, with the byte offset of `lw` and `sw` divided
by 4. 40_control_datapath.md R83 (D15). -/
def aluImmediate : Instr → Option Word
  | .addi _ _ imm _ => some (toWord (simpleImmediate imm))
  | .lw _ _ imm _ => some (BitVec.ofNat 32 (unsignedImmediate imm / 4))
  | .sw _ _ _ immLo _ => some (BitVec.ofNat 32 (unsignedImmediate immLo / 4))
  | .add _ _ _ => none
  | .sub _ _ _ => none
  | .and _ _ _ => none
  | .or _ _ _ => none
  | .beq _ _ _ _ => none
  | .bne _ _ _ _ => none

/-- The `B` operand multiplexer. 40_control_datapath.md R83. -/
def aluOperandB (aluSource : Bool) (rd2 imm : Option Word) : Option Word := if aluSource then imm else rd2

/-! ### Register file ports -/

/-- The read port `RD2`, driven when the format has an `rs2`. 40_control_datapath.md R84. -/
def readPort2 (s : State) (ra2 : Option RegIdx) : Option Word :=
  match ra2 with
  | none => none
  | some r => some (s.reg r)

/-- The write port: `WA = rd` whatever `RegDst` is, written when `WE = RegWrite` is 1; `none` for an undriven address
or datum. 40_control_datapath.md R84, R85 (D25). -/
def writePort (we : Bool) (wa : Option RegIdx) (wd : Option Word) : Option (Option (RegIdx × Word)) :=
  if we then
    match wa, wd with
    | some r, some v => some (some (r, v))
    | _, _ => none
  else some none

/-- The write-back multiplexer. 40_control_datapath.md R86. -/
def writeBack (memToReg : Bool) (rdata : Option Word) (y : Word) : Option Word := if memToReg then rdata else some y

/-! ### Memory arbiter -/

/-- The index test on the 32-bit sum. 20_memory.md R30. -/
def adderIndexOk (t : Word) : Bool := decide (0 ≤ signed32 t) && decide (signed32 t ≤ 255)

/-- What the arbiter grants in a step: the word read, and the write applied at commit. 20_memory.md R38. -/
structure Grant where
  rdata : Option Word
  store : Option (Nat × Word)
deriving DecidableEq, Repr

/-- The memory arbiter after the bounds check; `none` for the case that no instruction produces. 20_memory.md R38. -/
def arbiter (memRead memWrite : Bool) (a : Nat) (rd2 : Option Word) (s : State) : Option Grant :=
  match memRead, memWrite with
  | true, false => some { rdata := some (s.memRead a), store := none }
  | false, true =>
    match rd2 with
    | some v => some { rdata := none, store := some (a, v) }
    | none => none
  | false, false => some { rdata := none, store := none }
  | true, true => none

/-! ### Program counter logic -/

/-- The branch condition: `Zero` for `funct3 = 000`, else not `Zero`. 40_control_datapath.md R89 (D16). -/
def branchCond (funct3 : BitVec 3) (zero : Bool) : Bool := if funct3 = 0b000#3 then zero else !zero

/-- The branch-target adder's output for an instruction whose format has `imm_hi` and `imm_lo`. 40_control_datapath.md
R88. DESIGN CHOICE (log 11): R88 does not say what the adder outputs for the formats R and I, which do not drive its
inputs; here its output is then not driven, `none`. -/
def btarget (pc : Word) (i : Instr) : Option Word :=
  match i.immHi, i.immLo with
  | some hi, some lo => some (branchTarget pc hi lo)
  | _, _ => none

/-- The next pc: the multiplexer driven by `PCSrc = Branch and cond`. 40_control_datapath.md R89. -/
def nextPc (branch cond : Bool) (target : Option Word) (plus4 : Word) : Option Word :=
  if branch && cond then target else some plus4

/-! ### The datapath as a whole -/

/-- The bounds check in front of the arbiter: it applies to an instruction that accesses memory. The recorded index is
the sum of the adder's inputs as a mathematical integer (60_exceptions.md R110). 20_memory.md R30, R31. -/
def datapathCheck (c : ControlVector) (a b y : Word) (pc : Word) : Except ExecError Unit :=
  if (c.memRead || c.memWrite) && !adderIndexOk y then
    .error (.outOfBounds .memory (signed32 a + signed32 b) pc)
  else .ok ()

/-- The effect the units give after the bounds check has passed. -/
def datapathCommit (c : ControlVector) (i : Instr) (rd2 : Option Word) (out : AluOut) (s : State) : Option Effect := do
  let g ← arbiter c.memRead c.memWrite out.y.toNat rd2 s
  let w ← writePort c.regWrite i.rd (writeBack c.memToReg g.rdata out.y)
  let pc ← nextPc c.branch (branchCond i.funct3 out.zero) (btarget s.pc i) (pcPlus4 s.pc)
  return { regWrite := w, memWrite := g.store, nextPc := pc }

/-- One instruction through the units: control lines, read ports, ALU, bounds check, arbiter, write-back and pc
multiplexer; `none` where a port that is used is not driven. 40_control_datapath.md R74 to R90. -/
def datapath (i : Instr) (s : State) : Option (Except ExecError Effect) := do
  let c := controlVector i
  let rd2 := readPort2 s i.rs2
  let b ← aluOperandB c.aluSource rd2 (aluImmediate i)
  let op ← aluControl c.aluOp1 c.aluOp0 i.funct3 i.funct7
  let out := alu op (s.reg i.rs1) b
  match datapathCheck c (s.reg i.rs1) b out.y s.pc with
  | .error e => return .error e
  | .ok () =>
    let e ← datapathCommit c i rd2 out s
    return .ok e

end Sys2Proof.Machine
end

