-- ==== Sys2Proof/Machine/Disasm.lean ====
section
/-! DEFINITION. The printed forms of the output contract: the text of an instruction and the display of the control
lines (spec/30_encoding.md R71; D23, log 14). A text is a list of characters. They are outputs only (R12, R72). -/

namespace Sys2Proof.Machine

/-- A decimal digit. -/
def digitChar (d : Nat) : Char := Char.ofNat ('0'.toNat + d % 10)

/-- The decimal digits of `n`, most significant first, put before `acc`; `fuel` bounds their number. -/
def decimalLoop : Nat → Nat → List Char → List Char
  | 0, _, acc => acc
  | fuel + 1, n, acc => if n < 10 then digitChar n :: acc else decimalLoop fuel (n / 10) (digitChar n :: acc)

/-- A natural number in decimal: "All register/immediate numbers rendered in decimal". R71. -/
def decimal (n : Nat) : List Char := decimalLoop (n + 1) n []

/-- An integer in decimal: a negative value has a leading `-`, and no `+` is written. R71 (D23). -/
def signedDecimal (v : Int) : List Char := if v < 0 then '-' :: decimal v.natAbs else decimal v.natAbs

/-- `x<n>`. R71, 10_state.md R16. -/
def registerText (r : RegIdx) : List Char := 'x' :: decimal r.toNat

/-- The mnemonic's letters. -/
def mnemonicText : Mnemonic → List Char
  | .add => ['a', 'd', 'd']
  | .sub => ['s', 'u', 'b']
  | .and => ['a', 'n', 'd']
  | .or => ['o', 'r']
  | .addi => ['a', 'd', 'd', 'i']
  | .lw => ['l', 'w']
  | .sw => ['s', 'w']
  | .beq => ['b', 'e', 'q']
  | .bne => ['b', 'n', 'e']

/-- `<mnemonic> <a>, <b>, <c>`: one space after the mnemonic and after each comma. R71. -/
def threeOperands (m : Mnemonic) (a b c : List Char) : List Char :=
  mnemonicText m ++ [' '] ++ a ++ [',', ' '] ++ b ++ [',', ' '] ++ c

/-- `<mnemonic> <a>, <offset>(<base>)`. R71. -/
def memoryOperand (m : Mnemonic) (a offset base : List Char) : List Char :=
  mnemonicText m ++ [' '] ++ a ++ [',', ' '] ++ offset ++ ['('] ++ base ++ [')']

/-- The printed form of an instruction. 30_encoding.md R71. -/
def disassemble : Instr → List Char
  | .add rd rs1 rs2 => threeOperands .add (registerText rd) (registerText rs1) (registerText rs2)
  | .sub rd rs1 rs2 => threeOperands .sub (registerText rd) (registerText rs1) (registerText rs2)
  | .and rd rs1 rs2 => threeOperands .and (registerText rd) (registerText rs1) (registerText rs2)
  | .or rd rs1 rs2 => threeOperands .or (registerText rd) (registerText rs1) (registerText rs2)
  | .addi rd rs1 imm _ => threeOperands .addi (registerText rd) (registerText rs1) (signedDecimal (simpleImmediate imm))
  | .lw rd rs1 imm _ => memoryOperand .lw (registerText rd) (decimal (unsignedImmediate imm)) (registerText rs1)
  | .sw rs1 rs2 _ immLo _ => memoryOperand .sw (registerText rs2) (decimal (unsignedImmediate immLo)) (registerText rs1)
  | .beq rs1 rs2 immHi immLo =>
    threeOperands .beq (registerText rs1) (registerText rs2) (signedDecimal (branchImmediate immHi immLo))
  | .bne rs1 rs2 immHi immLo =>
    threeOperands .bne (registerText rs1) (registerText rs2) (signedDecimal (branchImmediate immHi immLo))

/-- The names of the nine control lines, in order. 40_control_datapath.md R74. -/
def controlNames : List (List Char) :=
  [['R', 'e', 'g', 'D', 's', 't'], ['R', 'e', 'g', 'W', 'r', 'i', 't', 'e'], ['B', 'r', 'a', 'n', 'c', 'h'],
   ['M', 'e', 'm', 'T', 'o', 'R', 'e', 'g'], ['M', 'e', 'm', 'R', 'e', 'a', 'd'],
   ['M', 'e', 'm', 'W', 'r', 'i', 't', 'e'], ['A', 'L', 'U', 'S', 'o', 'u', 'r', 'c', 'e'],
   ['A', 'L', 'U', 'O', 'p', '1'], ['A', 'L', 'U', 'O', 'p', '0']]

/-- The control-signal display: each line "as `name: 0|1`". 30_encoding.md R71. -/
def controlDisplay (c : ControlVector) : List (List Char) :=
  List.zipWith (fun name b => name ++ [':', ' ', if b then '1' else '0']) controlNames c.lines

end Sys2Proof.Machine
end

