-- ==== Sys2Proof/Machine/Load.lean ====
section
/-! DEFINITION. The program load: the program text becomes the program `P` before anything executes
(spec/70_reset_and_hazards.md R124 to R127). -/

namespace Sys2Proof.Machine

/-- The text split at each line feed; a line's content excludes its line feed. What follows the last line feed is a
line too, and an empty one when nothing follows. 70_reset_and_hazards.md R124 (D8, log 9). -/
def splitLines : List Char → List (List Char)
  | [] => [[]]
  | c :: cs =>
    if c = '\n' then [] :: splitLines cs
    else
      match splitLines cs with
      | [] => [[c]]
      | l :: ls => (c :: l) :: ls

/-- The lines of a text that are not blank, in order: a line is blank if its content is empty, and every other line is
passed on unchanged. 70_reset_and_hazards.md R124. -/
def programLines (text : List Char) : List (List Char) :=
  (splitLines text).filter (fun l => !l.isEmpty)

/-- The first line that fails to decode: its error, its number and its text. 60_exceptions.md R110. -/
structure LoadError where
  error : DecodeError
  line : Nat
  text : List Char
deriving DecidableEq, Repr

/-- Decoding of the lines in order, the first of them numbered `k`: all of them, or the error of the lowest-numbered
line that fails. 70_reset_and_hazards.md R125 (D9, log 9). -/
def decodeLines (strict : Bool) : Nat → List (List Char) → Except LoadError (List Decoded)
  | _, [] => .ok []
  | k, l :: ls =>
    match decodeLine strict l with
    | .error e => .error { error := e, line := k, text := l }
    | .ok d =>
      match decodeLines strict (k + 1) ls with
      | .error e => .error e
      | .ok ds => .ok (d :: ds)

/-- Reset and load. If every line decodes, the machine is `Running` at `pc = 0` with the program; if one does not, the
status is `LoadFailed` and no program exists. A text of more than `2^30` instructions is refused.
70_reset_and_hazards.md R125, R126 (D21, log 12). -/
def loadText (strict : Bool) (text : List Char) : Host.Outcome State Fault Refusal :=
  if Config.maxProgram < (programLines text).length then .refused .programTooLong
  else
    match decodeLines strict 0 (programLines text) with
    | .error e => .next { State.reset with status := .loadFailed e.error e.line e.text }
    | .ok p => .next { State.reset with program := p }

end Sys2Proof.Machine
end

