-- ==== Sys2Proof/Safety.lean ====
section
/-! DEFINITION. What counts as a good state and a finished run, in the terms the claims use. -/

namespace Sys2Proof.Machine

/-! ### The end of a run (spec/40_control_datapath.md R95) -/

/-- Where a run stands. "A run that never reaches one of these is infinite": `unfinished` is every other status. -/
inductive RunEnd where
  | normalEnd
  | error
  | noStart
  | unfinished
deriving DecidableEq, Repr

/-- The three ends of a run, read from the status. 40_control_datapath.md R95. -/
def State.runEnd (s : State) : RunEnd :=
  match s.status with
  | .halted => .normalEnd
  | .faulted _ => .error
  | .loadFailed _ _ _ => .noStart
  | .running => .unfinished

/-- The observation of a finished run, `(x, mem, pc)` at `Halted`. 40_control_datapath.md R95. -/
def State.observation (s : State) : Option (Vector Word 32 × Memory × Word) :=
  match s.runEnd with
  | .normalEnd => some (s.x, s.mem, s.pc)
  | .error => none
  | .noStart => none
  | .unfinished => none

/-! ### The invariant -/

/-- What the status records is true of the rest of the state (10_state.md R27, 60_exceptions.md R110, R113):
`Halted` is at `4*N`; a recorded `OutOfBounds` index lies outside 0..255 and its pc is the pc of an instruction of the
program; a recorded fetch error is the error of this pc; `LoadFailed` has the reset values, no program, and a line
that does fail so. -/
def StatusTrue (strict : Bool) (s : State) : Prop :=
  match s.status with
  | .running => True
  | .halted => s.pc.toNat = 4 * s.program.length
  | .faulted (.outOfBounds kind index pc) =>
    kind = .memory ∧ (index < 0 ∨ 255 < index) ∧ pc = s.pc ∧ ∃ d, fetch s.program s.pc = .instr d
  | .faulted (.pcMisaligned pc) => pc = s.pc ∧ s.pc.toNat % 4 ≠ 0
  | .faulted (.pcOutOfRange pc) => pc = s.pc ∧ s.pc.toNat % 4 = 0 ∧ s.program.length < s.pc.toNat / 4
  | .loadFailed e _ line =>
    decodeLine strict line = .error e ∧ s = { State.reset with status := s.status }

/-- The states of a machine that was loaded with the parameter `strictFunct3 = strict`. -/
structure Inv (strict : Bool) (s : State) : Prop where
  /-- The memory keeps its canonical form: 256 words at most (10_state.md R25). -/
  memory : s.mem.wf = true
  /-- `N <= 2^30`. 00_scope.md R7. -/
  length : s.program.length ≤ Config.maxProgram
  /-- Every entry of `P` is its `raw` word, decoded. 10_state.md R26. -/
  decoded : ∀ d ∈ s.program, decodeWord strict d.raw = .ok d.instr
  /-- The pc is even: it moves by 4 or by an even branch immediate. 30_encoding.md R66. -/
  even : s.pc.toNat % 2 = 0
  /-- The status tells the truth. -/
  status : StatusTrue strict s

end Sys2Proof.Machine
end

