-- ==== Sys2Proof/Certificates/Slice0/Obligations.lean ====
section
/-! DEFINITION. The statements for the provers. Each docstring names the rule of spec/ it formalises; where a clause
rests on a choice that the spec marks as its own ([decision: see D..]), it names that choice and its log entry. -/

namespace Sys2Proof.Machine

/-! ### What the statements are written with -/

/-- The words that decode to the mnemonic `m` are exactly those that match the row of spec/opcode_table.json, and
their instruction is `fields w`. -/
def EncodedAs (m : Mnemonic) (fields : Word → Instr) (pattern mask strictPattern strictMask : Word) : Prop :=
  ∀ (strict : Bool) (w : Word) (i : Instr),
    (decodeWord strict w = .ok i ∧ i.mnemonic = m) ↔
      (w &&& (if strict then strictMask else mask) = (if strict then strictPattern else pattern) ∧ i = fields w)

/-- `t` is `s` with `v` in register `rd` and the pc advanced by 4 modulo `2^32`, and nothing else changed. -/
def RegisterResult (rd : RegIdx) (v : Word) (s t : State) : Prop :=
  t.reg rd = v ∧ (∀ q, q ≠ rd → t.reg q = s.reg q) ∧ (∀ a, t.memRead a = s.memRead a) ∧
    t.pc.toNat = (s.pc.toNat + 4) % 2 ^ 32 ∧ t.program = s.program ∧ t.status = s.status

/-- `t` is `s` with `v` in the memory word `a` and the pc advanced by 4 modulo `2^32`, and nothing else changed. -/
def StoreResult (a : Nat) (v : Word) (s t : State) : Prop :=
  t.memRead a = v ∧ (∀ b, b ≠ a → t.memRead b = s.memRead b) ∧ (∀ q, t.reg q = s.reg q) ∧
    t.pc.toNat = (s.pc.toNat + 4) % 2 ^ 32 ∧ t.program = s.program ∧ t.status = s.status

/-- `t` is `s` with the pc moved by `d` modulo `2^32`, and nothing else changed. -/
def BranchResult (d : Int) (s t : State) : Prop :=
  (t.pc.toNat : Int) = ((s.pc.toNat : Int) + d) % 2 ^ 32 ∧ (∀ q, t.reg q = s.reg q) ∧
    (∀ a, t.memRead a = s.memRead a) ∧ t.program = s.program ∧ t.status = s.status

/-- The instruction is a `beq` of equal registers or a `bne` of unequal ones. -/
def BranchTaken (i : Instr) (s : State) : Prop :=
  ∃ r2, i.rs2 = some r2 ∧
    ((i.mnemonic = .beq ∧ s.reg i.rs1 = s.reg r2) ∨ (i.mnemonic = .bne ∧ s.reg i.rs1 ≠ s.reg r2))

/-- The branch offset of a word by the bit places of 30_encoding.md R66: `sext_13(w[31] ‖ w[7] ‖ w[30:25] ‖ w[11:8] ‖ 0)`. -/
def sext13 (immHi : BitVec 7) (immLo : BitVec 5) : Int :=
  (immHi.extractLsb' 6 1 ++ immLo.extractLsb' 0 1 ++ immHi.extractLsb' 0 6 ++ immLo.extractLsb' 1 4 ++ 0#1).toInt

/-- The number that a list of decimal digits writes, and none where a character is no digit. -/
def readDecimal (s : List Char) : Option Nat :=
  s.foldl (fun n c => n.bind fun k => if c.isDigit then some (10 * k + (c.toNat - '0'.toNat)) else none) (some 0)

/-- `Execute(i, x, mem, pc)` as 41_alu.md, 42_load_store.md and 43_branch.md write it: the register write, the memory write
and the next pc of the instruction, or its error. A load's word is at `s.loadIndex` and a store's at `s.storeIndex`. -/
def executeResult (i : Instr) (s : State) : Except ExecError Effect :=
  let pc4 : Word := BitVec.ofNat 32 (s.pc.toNat + 4)
  let target (hi : BitVec 7) (lo : BitVec 5) : Word := BitVec.ofInt 32 ((s.pc.toNat : Int) + branchImmediate hi lo)
  match i with
  | .add rd rs1 rs2 => .ok ⟨some (rd, BitVec.ofNat 32 ((s.reg rs1).toNat + (s.reg rs2).toNat)), none, pc4⟩
  | .sub rd rs1 rs2 => .ok ⟨some (rd, BitVec.ofInt 32 (((s.reg rs1).toNat : Int) - (s.reg rs2).toNat)), none, pc4⟩
  | .and rd rs1 rs2 => .ok ⟨some (rd, s.reg rs1 &&& s.reg rs2), none, pc4⟩
  | .or rd rs1 rs2 => .ok ⟨some (rd, s.reg rs1 ||| s.reg rs2), none, pc4⟩
  | .addi rd rs1 imm _ => .ok ⟨some (rd, BitVec.ofInt 32 (((s.reg rs1).toNat : Int) + imm.toInt)), none, pc4⟩
  | .lw rd rs1 imm _ =>
    match s.loadIndex rs1 imm with
    | .error e => .error e
    | .ok a => .ok ⟨some (rd, s.memRead a), none, pc4⟩
  | .sw rs1 rs2 _ lo _ =>
    match s.storeIndex rs1 lo with
    | .error e => .error e
    | .ok a => .ok ⟨none, some (a, s.reg rs2), pc4⟩
  | .beq rs1 rs2 hi lo => .ok ⟨none, none, if s.reg rs1 = s.reg rs2 then target hi lo else pc4⟩
  | .bne rs1 rs2 hi lo => .ok ⟨none, none, if s.reg rs1 = s.reg rs2 then pc4 else target hi lo⟩

end Sys2Proof.Machine

open Sys2Proof Sys2Proof.Machine

/-! ### Encoding -/

/-- No bit of an encoding is dropped: for either value of `strictFunct3`, an instruction that is well formed is read
back from its word with every operand as it was, and one that is not well formed has a word that does not decode to
it. 30_encoding.md sections 2 and 3. -/
def Obligations.DecodeEncodeRoundTrip : Prop :=
  ∀ (strict : Bool) (i : Instr), decodeWord strict (encode i) = .ok i ↔ i.wf strict = true

/-- Each word has one meaning and each instruction one word: a word that decodes is the encoding of its instruction,
which is well formed. 30_encoding.md R59 says that the word has one mnemonic; the fields are those of R48 to R51. -/
def Obligations.EncodeDecodeRoundTrip : Prop :=
  ∀ (strict : Bool) (w : Word) (i : Instr), decodeWord strict w = .ok i → encode i = w ∧ i.wf strict = true

/-- 30_encoding.md R59: decoding a word is total. Every word gives exactly one of a decoded instruction,
`UnsupportedOpcode` and `UnsupportedFunct`, one mnemonic is named for each word, and the opcode with `funct3` and
`funct7` decides it. What the errors record is the spec's own choice D11 (log 13). -/
def Obligations.EveryWordDecodesOrGivesANamedError : Prop :=
  (∀ (strict : Bool) (w : Word),
    ((∃ fmt, formatOf (opcodeOf w) = some fmt) ∧ ∃ i, decodeWord strict w = .ok i ∧ formatOf (opcodeOf w) = some i.format) ∨
    (formatOf (opcodeOf w) = none ∧ decodeWord strict w = .error (.unsupportedOpcode (opcodeOf w))) ∨
    ((∃ fmt, formatOf (opcodeOf w) = some fmt) ∧
      ∃ f7, decodeWord strict w = .error (.unsupportedFunct (opcodeOf w) (funct3Of w) f7))) ∧
  (∀ (strict : Bool) (v w : Word) (i j : Instr), opcodeOf v = opcodeOf w → funct3Of v = funct3Of w →
    funct7Of v = funct7Of w → decodeWord strict v = .ok i → decodeWord strict w = .ok j →
    i.mnemonic = j.mnemonic ∧ i.format = j.format)

/-- spec/INDEX.md, "Reading opcode_table.json": a decodable word matches exactly one row of the opcode table, the row
of its mnemonic, and a word that matches no row is a decode error. -/
def Obligations.OpcodeTableRowsPartitionDecodableWords : Prop :=
  ∀ (strict : Bool) (w : Word) (m : Mnemonic),
    (∃ i, decodeWord strict w = .ok i ∧ i.mnemonic = m) ↔
      (∃ row ∈ opcodeTable, row.mnemonic = m ∧ row.holds strict w = true) ∧
      (∀ row ∈ opcodeTable, row.holds strict w = true → row.mnemonic = m)

/-- 30_encoding.md R47: the opcode `w[6:0]` selects the format by a fixed table of five values, and any other opcode
is a decode error `UnsupportedOpcode`. That the error records the opcode is not R47's: it is the spec's own choice D11
(60_exceptions.md section 1, log 13). -/
def Obligations.OpcodeSelectsFormatByTable : Prop :=
  (∀ (strict : Bool) (w : Word) (i : Instr), decodeWord strict w = .ok i →
    (w.extractLsb' 0 7 = 0b0110011#7 ∧ i.format = .r ∧ i.mnemonic ∈ [Mnemonic.add, .sub, .and, .or]) ∨
    (w.extractLsb' 0 7 = 0b0000011#7 ∧ i.format = .i ∧ i.mnemonic = .lw) ∨
    (w.extractLsb' 0 7 = 0b0010011#7 ∧ i.format = .i ∧ i.mnemonic = .addi) ∨
    (w.extractLsb' 0 7 = 0b0100011#7 ∧ i.format = .s ∧ i.mnemonic = .sw) ∨
    (w.extractLsb' 0 7 = 0b1100011#7 ∧ i.format = .b ∧ i.mnemonic ∈ [Mnemonic.beq, .bne])) ∧
  (∀ (strict : Bool) (w : Word),
    decodeWord strict w = .error (.unsupportedOpcode (w.extractLsb' 0 7)) ↔
      w.extractLsb' 0 7 ∉ [0b0110011#7, 0b0000011#7, 0b0010011#7, 0b0100011#7, 0b1100011#7])

/-- 30_encoding.md R53: format R resolves its mnemonic from `(funct3, funct7)`, and any other combination is
`UnsupportedFunct`. That the error records the opcode, `funct3` and `funct7` is not R53's: it is the spec's own choice D11
(60_exceptions.md section 1, log 13). -/
def Obligations.FormatRResolvesByFunctFields : Prop :=
  ∀ (strict : Bool) (w : Word), w.extractLsb' 0 7 = 0b0110011#7 →
    decodeWord strict w =
      (if w.extractLsb' 12 3 = 0b000#3 ∧ w.extractLsb' 25 7 = 0b0000000#7 then
        .ok (.add (w.extractLsb' 7 5) (w.extractLsb' 15 5) (w.extractLsb' 20 5))
      else if w.extractLsb' 12 3 = 0b000#3 ∧ w.extractLsb' 25 7 = 0b0100000#7 then
        .ok (.sub (w.extractLsb' 7 5) (w.extractLsb' 15 5) (w.extractLsb' 20 5))
      else if w.extractLsb' 12 3 = 0b111#3 ∧ w.extractLsb' 25 7 = 0b0000000#7 then
        .ok (.and (w.extractLsb' 7 5) (w.extractLsb' 15 5) (w.extractLsb' 20 5))
      else if w.extractLsb' 12 3 = 0b110#3 ∧ w.extractLsb' 25 7 = 0b0000000#7 then
        .ok (.or (w.extractLsb' 7 5) (w.extractLsb' 15 5) (w.extractLsb' 20 5))
      else .error (.unsupportedFunct 0b0110011#7 (w.extractLsb' 12 3) (some (w.extractLsb' 25 7))))

/-- 30_encoding.md R56: format B resolves its mnemonic from `funct3` alone; the values `010` to `111` are
`UnsupportedFunct`; the format has no `funct7`. What the error records is not R56's: it is the spec's own choice D11
(60_exceptions.md section 1, log 13). -/
def Obligations.FormatBResolvesByFunct3 : Prop :=
  ∀ (strict : Bool) (w : Word), w.extractLsb' 0 7 = 0b1100011#7 →
    decodeWord strict w =
      (if w.extractLsb' 12 3 = 0b000#3 then
        .ok (.beq (w.extractLsb' 15 5) (w.extractLsb' 20 5) (w.extractLsb' 25 7) (w.extractLsb' 7 5))
      else if w.extractLsb' 12 3 = 0b001#3 then
        .ok (.bne (w.extractLsb' 15 5) (w.extractLsb' 20 5) (w.extractLsb' 25 7) (w.extractLsb' 7 5))
      else .error (.unsupportedFunct 0b1100011#7 (w.extractLsb' 12 3) none))

/-- The parameter `strictFunct3` (30_encoding.md, formats I and S; the spec's own choice D7, log 8): by default every
`funct3` is accepted; the strict decoder accepts a word exactly when the default one does and its `funct3` is the
required one, with the same instruction; what it refuses so is `UnsupportedFunct`, with the record of D11 (log 13). -/
def Obligations.StrictFunct3OnlyNarrowsFormatsIAndS : Prop :=
  (∀ w : Word, w.extractLsb' 0 7 ∈ [0b0010011#7, 0b0000011#7, 0b0100011#7] → ∃ i, decodeWord false w = .ok i) ∧
  (∀ (w : Word) (i : Instr), decodeWord true w = .ok i ↔ decodeWord false w = .ok i ∧ i.wf true = true) ∧
  (∀ (w : Word) (i : Instr), decodeWord false w = .ok i → i.wf true = false →
    decodeWord true w = .error (.unsupportedFunct (opcodeOf w) (funct3Of w) none)) ∧
  (∀ (w : Word) (e : DecodeError), decodeWord false w = .error e → decodeWord true w = .error e)

/-- 30_encoding.md section 3, `Decode(s)`: the checks in their order (the spec's own choice D26). A line that is not 32
binary characters is `MalformedEncoding` whatever it holds; a line of a word gives what the word gives, with the word
kept as `raw`. -/
def Obligations.LineIsCheckedBeforeOpcodeAndFunct : Prop :=
  (∀ (strict : Bool) (s : List Char),
    decodeLine strict s = .error .malformedEncoding ↔ ¬ (s.length = 32 ∧ ∀ c ∈ s, c = '0' ∨ c = '1')) ∧
  (∀ (strict : Bool) (s : List Char) (w : Word) (i : Instr), wordOfLine s = some w → decodeWord strict w = .ok i →
    decodeLine strict s = .ok { instr := i, raw := w }) ∧
  (∀ (strict : Bool) (s : List Char) (w : Word) (e : DecodeError), wordOfLine s = some w →
    decodeWord strict w = .error e → decodeLine strict s = .error e)

/-- 00_scope.md section 5 and 30_encoding.md section 1, `CheckLine`: a line gives a word exactly when it has 32
characters, all of them binary, and character `p` is then bit `31 - p`; every word has such a line. -/
def Obligations.LineCharacterIsWordBit : Prop :=
  (∀ (s : List Char) (w : Word), wordOfLine s = some w ↔
    s.length = 32 ∧ (∀ c ∈ s, c = '0' ∨ c = '1') ∧ ∀ p, p < 32 → (w.getLsbD (31 - p) = true ↔ s[p]? = some '1')) ∧
  (∀ w : Word, wordOfLine (lineOfWord w) = some w)

/-- A few words written out bit by bit from the encodings of spec/opcode_table.json decode to the instruction they stand
for: one of each instruction. -/
def Obligations.SampleWordsDecode : Prop :=
  decodeTableWord 32 0b0000000_00010_00001_000_00011_0110011 = some (.add 3#5 1#5 2#5) ∧
  decodeTableWord 32 0b0100000_00010_00001_000_00011_0110011 = some (.sub 3#5 1#5 2#5) ∧
  decodeTableWord 32 0b0000000_00010_00001_111_00011_0110011 = some (.and 3#5 1#5 2#5) ∧
  decodeTableWord 32 0b0000000_00010_00001_110_00011_0110011 = some (.or 3#5 1#5 2#5) ∧
  decodeTableWord 32 0b000000000101_00000_000_00001_0010011 = some (.addi 1#5 0#5 5#12 0#3) ∧
  decodeTableWord 32 0b111111111100_00010_010_00011_0000011 = some (.lw 3#5 2#5 4092#12 2#3) ∧
  decodeTableWord 32 0b0000001_00001_00010_010_11111_0100011 = some (.sw 2#5 1#5 1#7 31#5 2#3) ∧
  decodeTableWord 32 0b1000000_00010_00001_000_00001_1100011 = some (.beq 1#5 2#5 0b1000000#7 0b00001#5) ∧
  decodeTableWord 32 0b1111111_00010_00001_001_11001_1100011 = some (.bne 1#5 2#5 0b1111111#7 0b11001#5) ∧
  decodeTableWord 32 0b0000001_00010_00001_000_00011_0110011 = none ∧
  decodeTableWord 32 0b0000000_00010_00001_010_00000_1100011 = none ∧
  decodeTableWord 32 0b000000000000_00000_000_00000_1110011 = none

/-- 30_encoding.md section 3, the decoder unit (the spec's own reading D17, log 11). For a line that gives a word, decodable
or not, `raw` is the word, the opcode is driven, and so are the format and each of its fields, while a field that the
format lacks is not driven; `valid` is 1 exactly when the word decodes, with the mnemonic, else `err` is its error. Where
the spec is silent the model chooses (log 16, DESIGN CHOICE): a word whose opcode has no format drives no other field, a
word that does not decode drives no `mnemonic`, and a line that gives no word drives `err` alone. -/
def Obligations.DecoderPortsDriveTheFormatsFields : Prop :=
  (∀ (strict : Bool) (line : List Char) (w : Word), wordOfLine line = some w →
    let p := decoderPorts strict line
    p.raw = some w ∧ p.opcode = some (w.extractLsb' 0 7) ∧ p.fmt = formatOf (opcodeOf w) ∧
    p.funct3 = (if p.fmt = none then none else some (w.extractLsb' 12 3)) ∧
    p.rs1 = (if p.fmt = none then none else some (w.extractLsb' 15 5)) ∧
    p.funct7 = (if p.fmt = some .r then some (w.extractLsb' 25 7) else none) ∧
    p.rs2 = (if p.fmt = none ∨ p.fmt = some .i then none else some (w.extractLsb' 20 5)) ∧
    p.rd = (if p.fmt = some .r ∨ p.fmt = some .i then some (w.extractLsb' 7 5) else none) ∧
    p.imm = (if p.fmt = some .i then some (w.extractLsb' 20 12) else none) ∧
    p.immHi = (if p.fmt = some .s ∨ p.fmt = some .b then some (w.extractLsb' 25 7) else none) ∧
    p.immLo = (if p.fmt = some .s ∨ p.fmt = some .b then some (w.extractLsb' 7 5) else none)) ∧
  (∀ (strict : Bool) (line : List Char) (w : Word) (i : Instr), wordOfLine line = some w → decodeWord strict w = .ok i →
    let p := decoderPorts strict line
    p.valid = true ∧ p.err = none ∧ p.mnemonic = some i.mnemonic ∧ p.fmt = some i.format) ∧
  (∀ (strict : Bool) (line : List Char) (e : DecodeError), decodeLine strict line = .error e →
    let p := decoderPorts strict line
    p.valid = false ∧ p.err = some e ∧ p.mnemonic = none) ∧
  (∀ (strict : Bool) (line : List Char), wordOfLine line = none →
    let p := decoderPorts strict line
    p.fmt = none ∧ p.opcode = none ∧ p.funct3 = none ∧ p.funct7 = none ∧ p.rs1 = none ∧ p.rs2 = none ∧ p.rd = none ∧
    p.imm = none ∧ p.immHi = none ∧ p.immLo = none ∧ p.raw = none)

/-- 30_encoding.md section 6, "All register/immediate numbers rendered in decimal": the digits of a number read back as
the number, with no leading zero; a negative value has a leading `-` (the spec's own choice D23, log 14). -/
def Obligations.DecimalDigitsReadBack : Prop :=
  (∀ n : Nat, readDecimal (decimal n) = some n ∧ (n ≠ 0 → (decimal n).head? ≠ some '0') ∧ decimal n ≠ []) ∧
  (∀ v : Int, v < 0 → signedDecimal v = '-' :: decimal v.natAbs) ∧
  (∀ v : Int, 0 ≤ v → signedDecimal v = decimal v.toNat)

/-- 30_encoding.md section 6: the printed form of each instruction follows its template, letter for letter, with the
byte offset of `lw` and `sw` not divided by 4 (the spec's own choice D23, log 14). -/
def Obligations.PrintedFormsFollowTheTemplates : Prop :=
  (∀ rd rs1 rs2, disassemble (.add rd rs1 rs2) =
    "add x".toList ++ decimal rd.toNat ++ ", x".toList ++ decimal rs1.toNat ++ ", x".toList ++ decimal rs2.toNat) ∧
  (∀ rd rs1 rs2, disassemble (.sub rd rs1 rs2) =
    "sub x".toList ++ decimal rd.toNat ++ ", x".toList ++ decimal rs1.toNat ++ ", x".toList ++ decimal rs2.toNat) ∧
  (∀ rd rs1 rs2, disassemble (.and rd rs1 rs2) =
    "and x".toList ++ decimal rd.toNat ++ ", x".toList ++ decimal rs1.toNat ++ ", x".toList ++ decimal rs2.toNat) ∧
  (∀ rd rs1 rs2, disassemble (.or rd rs1 rs2) =
    "or x".toList ++ decimal rd.toNat ++ ", x".toList ++ decimal rs1.toNat ++ ", x".toList ++ decimal rs2.toNat) ∧
  (∀ rd rs1 imm f3, disassemble (.addi rd rs1 imm f3) =
    "addi x".toList ++ decimal rd.toNat ++ ", x".toList ++ decimal rs1.toNat ++ ", ".toList ++ signedDecimal imm.toInt) ∧
  (∀ rd rs1 imm f3, disassemble (.lw rd rs1 imm f3) =
    "lw x".toList ++ decimal rd.toNat ++ ", ".toList ++ decimal imm.toNat ++ "(x".toList ++ decimal rs1.toNat ++
      ")".toList) ∧
  (∀ rs1 rs2 hi lo f3, disassemble (.sw rs1 rs2 hi lo f3) =
    "sw x".toList ++ decimal rs2.toNat ++ ", ".toList ++ decimal lo.toNat ++ "(x".toList ++ decimal rs1.toNat ++
      ")".toList) ∧
  (∀ rs1 rs2 hi lo, disassemble (.beq rs1 rs2 hi lo) =
    "beq x".toList ++ decimal rs1.toNat ++ ", x".toList ++ decimal rs2.toNat ++ ", ".toList ++
      signedDecimal (branchImmediate hi lo)) ∧
  (∀ rs1 rs2 hi lo, disassemble (.bne rs1 rs2 hi lo) =
    "bne x".toList ++ decimal rs1.toNat ++ ", x".toList ++ decimal rs2.toNat ++ ", ".toList ++
      signedDecimal (branchImmediate hi lo))

/-! ### Immediates -/

/-- 30_encoding.md R61: the simple immediate is the two's-complement value of its field, whatever the width; the
12-bit immediate of `addi` is that of `w[31:20]` and lies in −2048..2047. -/
def Obligations.SimpleImmediateIsTwosComplement : Prop :=
  (∀ (w : Nat) (f : BitVec w), simpleImmediate f = f.toInt) ∧
  (∀ (w : Nat) (f : BitVec w), simpleImmediate f = (f.toNat : Int) - (if f.msb = true then 2 ^ w else 0)) ∧
  (∀ (strict : Bool) (w : Word) (i : Instr), decodeWord strict w = .ok i → i.mnemonic = .addi →
    resolvedImmediate i = some (simpleImmediate (w.extractLsb' 20 12)) ∧
      -2048 ≤ simpleImmediate (w.extractLsb' 20 12) ∧ simpleImmediate (w.extractLsb' 20 12) ≤ 2047)

/-- 30_encoding.md section 4: the branch immediate, defined by the reassembly in character positions, is
`sext_13(w[31] ‖ w[7] ‖ w[30:25] ‖ w[11:8] ‖ 0)`; it is even, it lies in −4096..4094, and every even number in that
range is one. It rests on the spec's own reading D12 (log 10). -/
def Obligations.BranchImmediateIsSext13 : Prop :=
  (∀ (immHi : BitVec 7) (immLo : BitVec 5),
    branchImmediate immHi immLo = sext13 immHi immLo ∧ branchImmediate immHi immLo % 2 = 0 ∧
      -4096 ≤ branchImmediate immHi immLo ∧ branchImmediate immHi immLo ≤ 4094) ∧
  (∀ v : Int, v % 2 = 0 → -4096 ≤ v → v ≤ 4094 → ∃ immHi immLo, branchImmediate immHi immLo = v)

/-- 30_encoding.md R67: the one operand value the resolver gives each instruction; none for the format R. -/
def Obligations.ResolverGivesOneOperandValue : Prop :=
  (∀ rd rs1 imm f3, resolvedImmediate (.addi rd rs1 imm f3) = some (simpleImmediate imm)) ∧
  (∀ rd rs1 imm f3, resolvedImmediate (.lw rd rs1 imm f3) = some (imm.toNat : Int)) ∧
  (∀ rs1 rs2 immHi immLo f3, resolvedImmediate (.sw rs1 rs2 immHi immLo f3) = some (immLo.toNat : Int)) ∧
  (∀ rs1 rs2 immHi immLo, resolvedImmediate (.beq rs1 rs2 immHi immLo) = some (branchImmediate immHi immLo)) ∧
  (∀ rs1 rs2 immHi immLo, resolvedImmediate (.bne rs1 rs2 immHi immLo) = some (branchImmediate immHi immLo)) ∧
  (∀ i : Instr, i.format = .r → resolvedImmediate i = none)

/-- 30_encoding.md R64: the offset of `sw` is `w[11:7]`, in 0..31, and `imm_hi` does not take part: two `sw` words that
differ only in bits 31 to 25 do the same, in every state. -/
def Obligations.StoreIgnoresImmHi : Prop :=
  ∀ (strict : Bool) (v w : Word) (i j : Instr), decodeWord strict v = .ok i → decodeWord strict w = .ok j →
    i.mnemonic = .sw → v.extractLsb' 0 25 = w.extractLsb' 0 25 →
    resolvedImmediate i = some ((v.extractLsb' 7 5).toNat : Int) ∧ (v.extractLsb' 7 5).toNat ≤ 31 ∧
    ∀ s : State, exec i s = exec j s

/-! ### Control lines and datapath -/

/-- 40_control_datapath.md R75: the lines each condition sets true; a line that no condition sets is false. -/
def Obligations.ControlLinesFollowTheTable : Prop :=
  ∀ i : Instr,
    ((controlVector i).regDst = true ↔ i.format = .r) ∧
    ((controlVector i).regWrite = true ↔ i.format = .r ∨ i.mnemonic = .lw ∨ i.mnemonic = .addi) ∧
    ((controlVector i).branch = true ↔ i.format = .b) ∧
    ((controlVector i).memToReg = true ↔ i.mnemonic = .lw) ∧
    ((controlVector i).memRead = true ↔ i.mnemonic = .lw) ∧
    ((controlVector i).memWrite = true ↔ i.mnemonic = .sw) ∧
    ((controlVector i).aluSource = true ↔ i.mnemonic = .lw ∨ i.mnemonic = .addi ∨ i.mnemonic = .sw) ∧
    ((controlVector i).aluOp1 = true ↔ i.format = .r) ∧
    ((controlVector i).aluOp0 = true ↔ i.format = .b)

/-- 40_control_datapath.md section 1: as a function of a word the vector depends only on the opcode, and a word that
does not decode has none (the spec's own derivation, and its choice D20). The vectors are in the order `RegDst,
RegWrite, Branch, MemToReg, MemRead, MemWrite, ALUSource, ALUOp1, ALUOp0`. -/
def Obligations.ControlVectorDependsOnOpcodeOnly : Prop :=
  (∀ (strict : Bool) (w : Word) (c : ControlVector), controlOfWord strict w = some c →
    c.lines.map (fun b => if b then 1 else 0) =
      (if opcodeOf w = 0b0110011#7 then [1, 1, 0, 0, 0, 0, 0, 1, 0]
      else if opcodeOf w = 0b0010011#7 then [0, 1, 0, 0, 0, 0, 1, 0, 0]
      else if opcodeOf w = 0b0000011#7 then [0, 1, 0, 1, 1, 0, 1, 0, 0]
      else if opcodeOf w = 0b0100011#7 then [0, 0, 0, 0, 0, 1, 1, 0, 0]
      else [0, 0, 1, 0, 0, 0, 0, 0, 1])) ∧
  (∀ (strict : Bool) (w : Word), controlOfWord strict w = none ↔ ∃ e, decodeWord strict w = .error e)

/-- 40_control_datapath.md section 2: the four ALU operations, reduced modulo `2^32` (the spec's own choice D1, log 1),
and `Zero`; `SUB` gives `Zero` exactly on equal inputs. -/
def Obligations.AluOperationsAndZero : Prop :=
  ∀ a b : Word,
    (alu .add a b).y.toNat = (a.toNat + b.toNat) % 2 ^ 32 ∧
    ((alu .sub a b).y.toNat : Int) = ((a.toNat : Int) - b.toNat) % 2 ^ 32 ∧
    (∀ k, (alu .and a b).y.getLsbD k = (a.getLsbD k && b.getLsbD k)) ∧
    (∀ k, (alu .or a b).y.getLsbD k = (a.getLsbD k || b.getLsbD k)) ∧
    (∀ op, (alu op a b).zero = true ↔ (alu op a b).y = 0#32) ∧
    ((alu .sub a b).zero = true ↔ a = b)

/-- 20_memory.md section 1: the index computed with the 32-bit adder passes the test on exactly the indices in 0..255
and gives the same index, for every base and every offset of `lw` or `sw` (the spec derives it). -/
def Obligations.AdderIndexAgreesWithMathematicalIndex : Prop :=
  ∀ (base : Word) (off : Nat), off ≤ 4095 →
    (adderIndexOk (base + BitVec.ofNat 32 (off / 4)) = true ↔ 0 ≤ effIndex base off ∧ effIndex base off ≤ 255) ∧
    (0 ≤ effIndex base off ∧ effIndex base off ≤ 255 →
      ((base + BitVec.ofNat 32 (off / 4)).toNat : Int) = effIndex base off)

/-- 40_control_datapath.md section 5, "Datapath and instruction rules agree": for each of the nine instructions, in
every state, the control lines, the ports, the ALU, the bounds check, the arbiter, the write-back multiplexer and the
pc multiplexer are all driven where they are used and together do what the instruction's own rule does. The structure
is the spec's choice (D15, D16, D17, D25, log 11). -/
def Obligations.DatapathDoesWhatTheInstructionRulesSay : Prop :=
  ∀ (i : Instr) (s : State), ∃ r, datapath i s = some r ∧ s.settle r = exec i s

/-! ### The instructions, one by one -/

/-- 41_alu.md R98: encoding, control vector, ALU operation, result, frame and pc of `add`. The reduction modulo `2^32`
is the rule's own; the 32-bit width behind it is the spec's choice D1 (log 1). -/
def Obligations.AddFollowsItsRule : Prop :=
  EncodedAs .add (fun w => .add (w.extractLsb' 7 5) (w.extractLsb' 15 5) (w.extractLsb' 20 5))
    0x00000033#32 0xFE00707F#32 0x00000033#32 0xFE00707F#32 ∧
  ∀ (rd rs1 rs2 : RegIdx) (s : State),
    (controlVector (.add rd rs1 rs2)).lines = [true, true, false, false, false, false, false, true, false] ∧
    aluControl true false (Instr.funct3 (.add rd rs1 rs2)) (Instr.funct7 (.add rd rs1 rs2)) = some .add ∧
    ∃ t, exec (.add rd rs1 rs2) s = .next t ∧
      RegisterResult rd (BitVec.ofNat 32 ((s.reg rs1).toNat + (s.reg rs2).toNat)) s t

/-- 41_alu.md R99: encoding, control vector, ALU operation, result, frame and pc of `sub`; modulo `2^32` by D1 (log
1). -/
def Obligations.SubFollowsItsRule : Prop :=
  EncodedAs .sub (fun w => .sub (w.extractLsb' 7 5) (w.extractLsb' 15 5) (w.extractLsb' 20 5))
    0x40000033#32 0xFE00707F#32 0x40000033#32 0xFE00707F#32 ∧
  ∀ (rd rs1 rs2 : RegIdx) (s : State),
    (controlVector (.sub rd rs1 rs2)).lines = [true, true, false, false, false, false, false, true, false] ∧
    aluControl true false (Instr.funct3 (.sub rd rs1 rs2)) (Instr.funct7 (.sub rd rs1 rs2)) = some .sub ∧
    ∃ t, exec (.sub rd rs1 rs2) s = .next t ∧
      RegisterResult rd (BitVec.ofInt 32 (((s.reg rs1).toNat : Int) - (s.reg rs2).toNat)) s t

/-- 41_alu.md R100: encoding, control vector, ALU operation, result, frame and pc of `and`. -/
def Obligations.AndFollowsItsRule : Prop :=
  EncodedAs .and (fun w => .and (w.extractLsb' 7 5) (w.extractLsb' 15 5) (w.extractLsb' 20 5))
    0x00007033#32 0xFE00707F#32 0x00007033#32 0xFE00707F#32 ∧
  ∀ (rd rs1 rs2 : RegIdx) (s : State),
    (controlVector (.and rd rs1 rs2)).lines = [true, true, false, false, false, false, false, true, false] ∧
    aluControl true false (Instr.funct3 (.and rd rs1 rs2)) (Instr.funct7 (.and rd rs1 rs2)) = some .and ∧
    ∃ t, exec (.and rd rs1 rs2) s = .next t ∧ RegisterResult rd (s.reg rs1 &&& s.reg rs2) s t

/-- 41_alu.md R101: encoding, control vector, ALU operation, result, frame and pc of `or`. -/
def Obligations.OrFollowsItsRule : Prop :=
  EncodedAs .or (fun w => .or (w.extractLsb' 7 5) (w.extractLsb' 15 5) (w.extractLsb' 20 5))
    0x00006033#32 0xFE00707F#32 0x00006033#32 0xFE00707F#32 ∧
  ∀ (rd rs1 rs2 : RegIdx) (s : State),
    (controlVector (.or rd rs1 rs2)).lines = [true, true, false, false, false, false, false, true, false] ∧
    aluControl true false (Instr.funct3 (.or rd rs1 rs2)) (Instr.funct7 (.or rd rs1 rs2)) = some .or ∧
    ∃ t, exec (.or rd rs1 rs2) s = .next t ∧ RegisterResult rd (s.reg rs1 ||| s.reg rs2) s t

/-- 41_alu.md R102: encoding (any `funct3`, or `000` when strict), control vector, ALU operation and operand, result,
frame and pc of `addi`; modulo `2^32` by D1 (log 1), the `funct3` reading by D7 (log 8). -/
def Obligations.AddiFollowsItsRule : Prop :=
  EncodedAs .addi (fun w => .addi (w.extractLsb' 7 5) (w.extractLsb' 15 5) (w.extractLsb' 20 12) (w.extractLsb' 12 3))
    0x00000013#32 0x0000007F#32 0x00000013#32 0x0000707F#32 ∧
  ∀ (rd rs1 : RegIdx) (imm : BitVec 12) (f3 : BitVec 3) (s : State),
    (controlVector (.addi rd rs1 imm f3)).lines = [false, true, false, false, false, false, true, false, false] ∧
    aluControl false false f3 none = some .add ∧
    aluImmediate (.addi rd rs1 imm f3) = some (BitVec.ofInt 32 imm.toInt) ∧
    ∃ t, exec (.addi rd rs1 imm f3) s = .next t ∧
      RegisterResult rd (BitVec.ofInt 32 (((s.reg rs1).toNat : Int) + imm.toInt)) s t

/-- 42_load_store.md R104: encoding (any `funct3`, or `010` when strict), control vector, ALU operation and operand of
`lw`; for an index `a` in 0..255 its result, frame and pc; for any other index the error `OutOfBounds(memory, a)` with
nothing committed. The `funct3` reading is D7 (log 8); that the error records the pc too is D11 (log 13). -/
def Obligations.LwFollowsItsRule : Prop :=
  EncodedAs .lw (fun w => .lw (w.extractLsb' 7 5) (w.extractLsb' 15 5) (w.extractLsb' 20 12) (w.extractLsb' 12 3))
    0x00000003#32 0x0000007F#32 0x00002003#32 0x0000707F#32 ∧
  ∀ (rd rs1 : RegIdx) (imm : BitVec 12) (f3 : BitVec 3) (s : State) (a : Int),
    a = (s.reg rs1).toInt + (imm.toNat / 4 : Nat) →
    (controlVector (.lw rd rs1 imm f3)).lines = [false, true, false, true, true, false, true, false, false] ∧
    aluControl false false f3 none = some .add ∧
    aluImmediate (.lw rd rs1 imm f3) = some (BitVec.ofNat 32 (imm.toNat / 4)) ∧
    (0 ≤ a ∧ a ≤ 255 → ∃ t, exec (.lw rd rs1 imm f3) s = .next t ∧ RegisterResult rd (s.memRead a.toNat) s t) ∧
    (a < 0 ∨ 255 < a →
      exec (.lw rd rs1 imm f3) s = .next { s with status := .faulted (.outOfBounds .memory a s.pc) })

/-- 42_load_store.md R105: encoding (any `funct3`, or `010` when strict), control vector, ALU operation and operand of
`sw`; for an index `a` in 0..255 the store to word `a`, its frame (every other word of memory and every register
unchanged) and the pc; for any other index the error `OutOfBounds(memory, a)` with nothing committed. The `funct3`
reading is D7 (log 8); that the error records the pc too is D11 (log 13). -/
def Obligations.SwFollowsItsRule : Prop :=
  EncodedAs .sw
    (fun w => .sw (w.extractLsb' 15 5) (w.extractLsb' 20 5) (w.extractLsb' 25 7) (w.extractLsb' 7 5) (w.extractLsb' 12 3))
    0x00000023#32 0x0000007F#32 0x00002023#32 0x0000707F#32 ∧
  ∀ (rs1 rs2 : RegIdx) (immHi : BitVec 7) (immLo : BitVec 5) (f3 : BitVec 3) (s : State) (a : Int),
    a = (s.reg rs1).toInt + (immLo.toNat / 4 : Nat) →
    (controlVector (.sw rs1 rs2 immHi immLo f3)).lines = [false, false, false, false, false, true, true, false, false] ∧
    aluControl false false f3 none = some .add ∧
    aluImmediate (.sw rs1 rs2 immHi immLo f3) = some (BitVec.ofNat 32 (immLo.toNat / 4)) ∧
    (0 ≤ a ∧ a ≤ 255 →
      ∃ t, exec (.sw rs1 rs2 immHi immLo f3) s = .next t ∧ StoreResult a.toNat (s.reg rs2) s t) ∧
    (a < 0 ∨ 255 < a →
      exec (.sw rs1 rs2 immHi immLo f3) s = .next { s with status := .faulted (.outOfBounds .memory a s.pc) })

/-- 43_branch.md R107: encoding, control vector, ALU operation, pc and frame of `beq`, taken and not taken. The branch
immediate rests on the spec's reading D12 (log 10), the wrap of the pc on D2 (log 2). -/
def Obligations.BeqFollowsItsRule : Prop :=
  EncodedAs .beq (fun w => .beq (w.extractLsb' 15 5) (w.extractLsb' 20 5) (w.extractLsb' 25 7) (w.extractLsb' 7 5))
    0x00000063#32 0x0000707F#32 0x00000063#32 0x0000707F#32 ∧
  ∀ (rs1 rs2 : RegIdx) (immHi : BitVec 7) (immLo : BitVec 5) (s : State),
    (controlVector (.beq rs1 rs2 immHi immLo)).lines = [false, false, true, false, false, false, false, false, true] ∧
    aluControl false true 0b000#3 none = some .sub ∧
    ∃ t, exec (.beq rs1 rs2 immHi immLo) s = .next t ∧
      (s.reg rs1 = s.reg rs2 → BranchResult (branchImmediate immHi immLo) s t) ∧
      (s.reg rs1 ≠ s.reg rs2 → BranchResult 4 s t)

/-- 43_branch.md R108: encoding, control vector, ALU operation, pc and frame of `bne`, taken and not taken. The branch
immediate rests on the spec's reading D12 (log 10), the wrap of the pc on D2 (log 2). -/
def Obligations.BneFollowsItsRule : Prop :=
  EncodedAs .bne (fun w => .bne (w.extractLsb' 15 5) (w.extractLsb' 20 5) (w.extractLsb' 25 7) (w.extractLsb' 7 5))
    0x00001063#32 0x0000707F#32 0x00001063#32 0x0000707F#32 ∧
  ∀ (rs1 rs2 : RegIdx) (immHi : BitVec 7) (immLo : BitVec 5) (s : State),
    (controlVector (.bne rs1 rs2 immHi immLo)).lines = [false, false, true, false, false, false, false, false, true] ∧
    aluControl false true 0b001#3 none = some .sub ∧
    ∃ t, exec (.bne rs1 rs2 immHi immLo) s = .next t ∧
      (s.reg rs1 ≠ s.reg rs2 → BranchResult (branchImmediate immHi immLo) s t) ∧
      (s.reg rs1 = s.reg rs2 → BranchResult 4 s t)

/-! ### Registers -/

/-- 10_state.md R15: `x0` is an ordinary register. Every instruction that writes a register writes `x0` when its `rd` is
0, a later read returns that value, an instruction that does not write `x0` leaves it, and it is 0 at reset. -/
def Obligations.RegisterZeroIsOrdinary : Prop :=
  State.reset.reg 0#5 = 0#32 ∧
  (∀ (v : Word) (s : State), (s.setReg 0#5 v).reg 0#5 = v) ∧
  (∀ (i : Instr) (s t : State), exec i s = .next t → t.reg 0#5 ≠ s.reg 0#5 → i.rd = some 0#5) ∧
  (∀ (rs1 rs2 : RegIdx) (s : State), ∃ t, exec (.add 0#5 rs1 rs2) s = .next t ∧ t.reg 0#5 = s.reg rs1 + s.reg rs2) ∧
  (∀ (rs1 rs2 : RegIdx) (s : State), ∃ t, exec (.sub 0#5 rs1 rs2) s = .next t ∧ t.reg 0#5 = s.reg rs1 - s.reg rs2) ∧
  (∀ (rs1 rs2 : RegIdx) (s : State), ∃ t, exec (.and 0#5 rs1 rs2) s = .next t ∧ t.reg 0#5 = s.reg rs1 &&& s.reg rs2) ∧
  (∀ (rs1 rs2 : RegIdx) (s : State), ∃ t, exec (.or 0#5 rs1 rs2) s = .next t ∧ t.reg 0#5 = s.reg rs1 ||| s.reg rs2) ∧
  (∀ (rs1 : RegIdx) (imm : BitVec 12) (f3 : BitVec 3) (s : State),
    ∃ t, exec (.addi 0#5 rs1 imm f3) s = .next t ∧ t.reg 0#5 = s.reg rs1 + imm.signExtend 32) ∧
  (∀ (rs1 : RegIdx) (imm : BitVec 12) (f3 : BitVec 3) (a : Nat) (s : State), s.loadIndex rs1 imm = .ok a →
    ∃ t, exec (.lw 0#5 rs1 imm f3) s = .next t ∧ t.reg 0#5 = s.memRead a)

/-- 10_state.md R17: which registers each instruction reads and writes, as the rule's table lists them. What an
instruction does depends on no register but those it reads: two states alike but for other registers give the same
written register, memory, pc and status. It changes no register but those it writes. It reads at most two and writes
at most one, and every register can be read and written. -/
def Obligations.InstructionsReadAndWriteTheListedRegisters : Prop :=
  (∀ rd rs1 rs2, registersRead (.add rd rs1 rs2) = [rs1, rs2] ∧ registersWritten (.add rd rs1 rs2) = [rd]) ∧
  (∀ rd rs1 rs2, registersRead (.sub rd rs1 rs2) = [rs1, rs2] ∧ registersWritten (.sub rd rs1 rs2) = [rd]) ∧
  (∀ rd rs1 rs2, registersRead (.and rd rs1 rs2) = [rs1, rs2] ∧ registersWritten (.and rd rs1 rs2) = [rd]) ∧
  (∀ rd rs1 rs2, registersRead (.or rd rs1 rs2) = [rs1, rs2] ∧ registersWritten (.or rd rs1 rs2) = [rd]) ∧
  (∀ rd rs1 imm f3, registersRead (.addi rd rs1 imm f3) = [rs1] ∧ registersWritten (.addi rd rs1 imm f3) = [rd]) ∧
  (∀ rd rs1 imm f3, registersRead (.lw rd rs1 imm f3) = [rs1] ∧ registersWritten (.lw rd rs1 imm f3) = [rd]) ∧
  (∀ rs1 rs2 hi lo f3, registersRead (.sw rs1 rs2 hi lo f3) = [rs1, rs2] ∧ registersWritten (.sw rs1 rs2 hi lo f3) = []) ∧
  (∀ rs1 rs2 hi lo, registersRead (.beq rs1 rs2 hi lo) = [rs1, rs2] ∧ registersWritten (.beq rs1 rs2 hi lo) = []) ∧
  (∀ rs1 rs2 hi lo, registersRead (.bne rs1 rs2 hi lo) = [rs1, rs2] ∧ registersWritten (.bne rs1 rs2 hi lo) = []) ∧
  (∀ (i : Instr) (s t : State) (q : RegIdx), exec i s = .next t → q ∉ registersWritten i → t.reg q = s.reg q) ∧
  (∀ (i : Instr) (s s' t t' : State), s.status = .running → s'.mem = s.mem → s'.pc = s.pc →
    s'.program = s.program → s'.status = s.status → (∀ q ∈ registersRead i, s'.reg q = s.reg q) →
    exec i s = .next t → exec i s' = .next t' →
    t'.mem = t.mem ∧ t'.pc = t.pc ∧ t'.program = t.program ∧ t'.status = t.status ∧
      (t.status = .running → ∀ q ∈ registersWritten i, t'.reg q = t.reg q)) ∧
  (∀ i : Instr, (registersRead i).length ≤ 2 ∧ (registersWritten i).length ≤ 1) ∧
  (∀ q : RegIdx, (∃ i, q ∈ registersRead i) ∧ (∃ i, q ∈ registersWritten i))

/-! ### Memory -/

/-- 20_memory.md sections 2 and 5: a read returns the value of the last write to that word, or 0 if nothing has written
it since reset; a write leaves every other word alone. In the canonical form, which every write inside 0..255 keeps, memories
that read alike are equal. The canonical form is the model's choice (log 7). -/
def Obligations.MemoryReadsTheLastWrite : Prop :=
  (∀ (m : Memory) (a : Nat) (v : Word), (m.write a v).read a = v) ∧
  (∀ (m : Memory) (a b : Nat) (v : Word), b ≠ a → (m.write a v).read b = m.read b) ∧
  (∀ a, State.reset.memRead a = 0#32) ∧
  (∀ (m : Memory) (a : Nat) (v : Word), m.wf = true → a < 256 → (m.write a v).wf = true) ∧
  (∀ m m' : Memory, m.wf = true → m'.wf = true → (∀ a, m.read a = m'.read a) → m = m')

/-- 20_memory.md R31: an index outside 0..255, a negative one included, raises `OutOfBounds`; the failed check reads
nothing, writes nothing and commits no register or pc change: the status records the error and the rest of the state is
as before, whatever the memory holds. An index in 0..255 raises nothing. What the error records is D11 (log 13). -/
def Obligations.OutOfBoundsCommitsNothing : Prop :=
  (∀ (rd rs1 : RegIdx) (imm : BitVec 12) (f3 : BitVec 3) (s : State),
    ((effIndex (s.reg rs1) imm.toNat < 0 ∨ 255 < effIndex (s.reg rs1) imm.toNat) →
      exec (.lw rd rs1 imm f3) s =
        .next { s with status := .faulted (.outOfBounds .memory (effIndex (s.reg rs1) imm.toNat) s.pc) }) ∧
    (0 ≤ effIndex (s.reg rs1) imm.toNat ∧ effIndex (s.reg rs1) imm.toNat ≤ 255 →
      ∃ t, exec (.lw rd rs1 imm f3) s = .next t ∧ t.status = s.status)) ∧
  (∀ (rs1 rs2 : RegIdx) (hi : BitVec 7) (lo : BitVec 5) (f3 : BitVec 3) (s : State),
    ((effIndex (s.reg rs1) lo.toNat < 0 ∨ 255 < effIndex (s.reg rs1) lo.toNat) →
      exec (.sw rs1 rs2 hi lo f3) s =
        .next { s with status := .faulted (.outOfBounds .memory (effIndex (s.reg rs1) lo.toNat) s.pc) }) ∧
    (0 ≤ effIndex (s.reg rs1) lo.toNat ∧ effIndex (s.reg rs1) lo.toNat ≤ 255 →
      ∃ t, exec (.sw rs1 rs2 hi lo f3) s = .next t ∧ t.status = s.status))

/-- 20_memory.md section 2: data accesses have no alignment rule. The two low bits of the offset are discarded: the
four offsets of one word do the same in every state, and the next offset reaches the next word (the spec's `floor`). -/
def Obligations.LowOffsetBitsAreDiscarded : Prop :=
  (∀ (rd rs1 : RegIdx) (imm imm' : BitVec 12) (f3 : BitVec 3) (s : State), imm.extractLsb' 2 10 = imm'.extractLsb' 2 10 →
    exec (.lw rd rs1 imm f3) s = exec (.lw rd rs1 imm' f3) s) ∧
  (∀ (rs1 rs2 : RegIdx) (hi : BitVec 7) (lo lo' : BitVec 5) (f3 : BitVec 3) (s : State),
    lo.extractLsb' 2 3 = lo'.extractLsb' 2 3 → exec (.sw rs1 rs2 hi lo f3) s = exec (.sw rs1 rs2 hi lo' f3) s) ∧
  (∀ (base : Word) (off : Nat), effIndex base (off + 4) = effIndex base off + 1)

/-- 10_state.md section 5, "Only `lw` reads it and only `sw` writes it": every instruction but `sw` leaves memory as it was.
What an instruction other than `lw` does, the rest of the state and the error included, is the same whatever the memory
holds; and `sw` then stores the same `x[rs2]` to the same word, the one `State.storeIndex` gives, and leaves every other
word of that memory alone. -/
def Obligations.OnlyLwReadsAndOnlySwWritesMemory : Prop :=
  (∀ (i : Instr) (s t : State), i.mnemonic ≠ .sw → exec i s = .next t → t.mem = s.mem) ∧
  (∀ (i : Instr) (s t : State) (m : Memory), i.mnemonic ≠ .lw → i.mnemonic ≠ .sw → exec i s = .next t →
    exec i { s with mem := m } = .next { t with mem := m }) ∧
  (∀ (rs1 rs2 : RegIdx) (hi : BitVec 7) (lo : BitVec 5) (f3 : BitVec 3) (s t : State) (m : Memory) (e : ExecError),
    s.storeIndex rs1 lo = .error e → exec (.sw rs1 rs2 hi lo f3) s = .next t →
    t.mem = s.mem ∧ exec (.sw rs1 rs2 hi lo f3) { s with mem := m } = .next { t with mem := m }) ∧
  (∀ (rs1 rs2 : RegIdx) (hi : BitVec 7) (lo : BitVec 5) (f3 : BitVec 3) (s t : State) (m : Memory) (a : Nat),
    s.storeIndex rs1 lo = .ok a → exec (.sw rs1 rs2 hi lo f3) s = .next t →
    t.memRead a = s.reg rs2 ∧ (∀ b, b ≠ a → t.memRead b = s.memRead b) ∧
    ∃ u, exec (.sw rs1 rs2 hi lo f3) { s with mem := m } = .next u ∧ u = { t with mem := u.mem } ∧
      u.memRead a = s.reg rs2 ∧ ∀ b, b ≠ a → u.memRead b = m.read b)

/-- 20_memory.md section 5: stores are never seen by instruction fetch. No instruction and no step changes the program, `sw`
writes only memory (and advances the pc, or records its error), what a fetch finds does not depend on memory, and the
opcode `0001111` does not decode. That this is the opcode of a fence is general knowledge in the spec
(93_implementation_defined.md G2); that it is refused is the opcode table's (30_encoding.md section 2); that the error
records the opcode is the spec's own choice D11 (log 13). -/
def Obligations.ProgramIsNeverChanged : Prop :=
  (∀ (i : Instr) (s t : State), exec i s = .next t → t.program = s.program) ∧
  (∀ s t : State, step s = .next t → t.program = s.program) ∧
  (∀ (rs1 rs2 : RegIdx) (hi : BitVec 7) (lo : BitVec 5) (f3 : BitVec 3) (s t : State),
    exec (.sw rs1 rs2 hi lo f3) s = .next t → t.x = s.x ∧ t.program = s.program) ∧
  (∀ (s t : State) (rs1 rs2 : RegIdx) (hi : BitVec 7) (lo : BitVec 5) (f3 : BitVec 3) (pc : Word),
    exec (.sw rs1 rs2 hi lo f3) s = .next t → fetch t.program pc = fetch s.program pc) ∧
  (∀ (strict : Bool) (w : Word), w.extractLsb' 0 7 = 0b0001111#7 →
    decodeWord strict w = .error (.unsupportedOpcode 0b0001111#7))

/-! ### The step -/

/-- 40_control_datapath.md R92: one step from `Running`. The end of the program gives `Halted`, a fetch error gives
`Faulted`, nothing else changed. Where the fetch finds an instruction, the step is that instruction's execution: if its
rule gives an effect (`executeResult`), that effect is committed and the machine stays `Running`; if its rule raises an
error, the status becomes `Faulted` with that error and nothing else changes. What an error records is D11 (log 13). -/
def Obligations.StepRunsTheFetchedInstruction : Prop :=
  (∀ s : State, s.status = .running → fetch s.program s.pc = .endOfProgram → step s = .next { s with status := .halted }) ∧
  (∀ (s : State) (e : ExecError), s.status = .running → fetch s.program s.pc = .fault e →
    step s = .next { s with status := .faulted e }) ∧
  (∀ (s : State) (d : Decoded), s.status = .running → fetch s.program s.pc = .instr d → step s = exec d.instr s) ∧
  (∀ (s : State) (d : Decoded) (e : Effect), s.status = .running → fetch s.program s.pc = .instr d →
    executeResult d.instr s = .ok e → step s = .next (s.commit e) ∧ (s.commit e).status = .running) ∧
  (∀ (s : State) (d : Decoded) (err : ExecError), s.status = .running → fetch s.program s.pc = .instr d →
    executeResult d.instr s = .error err → step s = .next { s with status := .faulted err })

/-- 40_control_datapath.md R93: an instruction has all of its effects or none. In every state its execution commits, at
once, exactly the effect that its rule gives for the state before (`executeResult`): the write of its `rd` if it has one,
the memory write if it is `sw`, to the index that `State.storeIndex` has found inside 0..255, and the next pc; or, only
where `State.loadIndex` or `State.storeIndex` gives an error, it raises that error and changes nothing else. A commit writes
that register, that word and the pc, and nothing else. -/
def Obligations.CommitIsAllOrNothing : Prop :=
  (∀ (i : Instr) (s : State) (e : Effect), executeResult i s = .ok e → exec i s = .next (s.commit e)) ∧
  (∀ (i : Instr) (s : State) (err : ExecError), executeResult i s = .error err →
    exec i s = .next { s with status := .faulted err }) ∧
  (∀ (i : Instr) (s : State) (e : Effect), executeResult i s = .ok e →
    e.regWrite.map Prod.fst = i.rd ∧ (e.memWrite = none ↔ i.mnemonic ≠ .sw) ∧
    ∀ a v, e.memWrite = some (a, v) →
      ∃ lo, i.immLo = some lo ∧ s.storeIndex i.rs1 lo = .ok a ∧ a ≤ 255 ∧ i.rs2.map s.reg = some v) ∧
  (∀ (i : Instr) (s : State) (err : ExecError), executeResult i s = .error err ↔
    (∃ imm, i.mnemonic = .lw ∧ i.imm = some imm ∧ s.loadIndex i.rs1 imm = .error err) ∨
    (∃ lo, i.mnemonic = .sw ∧ i.immLo = some lo ∧ s.storeIndex i.rs1 lo = .error err)) ∧
  (∀ (e : Effect) (s : State),
    (s.commit e).pc = e.nextPc ∧ (s.commit e).program = s.program ∧ (s.commit e).status = s.status ∧
    (∀ q, (s.commit e).reg q =
      match e.regWrite with
      | none => s.reg q
      | some (r, v) => if q = r then v else s.reg q) ∧
    (∀ a, (s.commit e).memRead a =
      match e.memWrite with
      | none => s.memRead a
      | some (b, v) => if a = b then v else s.memRead a))

/-- 40_control_datapath.md section 5, `Fetch(pc)`: its four outcomes, which exclude each other (the spec's own choices
D4 and D5, log 4, with the records of D11, log 13). The range test needs no test of its own in the model, which the third clause shows. -/
def Obligations.FetchHasFourOutcomes : Prop :=
  ∀ (p : List Decoded) (pc : Word),
    (pc.toNat % 4 ≠ 0 → fetch p pc = .fault (.pcMisaligned pc)) ∧
    (pc.toNat = 4 * p.length → fetch p pc = .endOfProgram) ∧
    (pc.toNat % 4 = 0 → p.length < pc.toNat / 4 → fetch p pc = .fault (.pcOutOfRange pc)) ∧
    (∀ (k : Nat) (h : k < p.length), pc.toNat = 4 * k → fetch p pc = .instr p[k])

/-- 60_exceptions.md section 3: a `Halted`, `Faulted` or `LoadFailed` machine takes no step, and a `Running` one always
does (the spec's own choice D6; that the answer is then a fault of the status's name is the model's choice; log 5). -/
def Obligations.OnlyARunningMachineSteps : Prop :=
  (∀ s : State, s.status = .running → ∃ t, step s = .next t) ∧
  (∀ s : State, s.status = .halted → step s = .fault .halted) ∧
  (∀ (s : State) (e : ExecError), s.status = .faulted e → step s = .fault .faulted) ∧
  (∀ (s : State) (e : DecodeError) (k : Nat) (line : List Char), s.status = .loadFailed e k line →
    step s = .fault .loadFailed)

/-- 40_control_datapath.md section 5, the end of a run: a state has an observation exactly when it is at its normal end,
and then the observation is its registers, memory and pc, the pc is `4*N` (the spec's own choice D4, log 4), and no
further step exists: that the step asked for answers the fault `halted` is the model's choice (log 5, DESIGN CHOICE). The
premise is the invariant that a load gives and every step keeps; its memory clause is the model's
canonical form (log 7). -/
def Obligations.ObservationIsTakenAtTheNormalEnd : Prop :=
  ∀ (strict : Bool) (s : State), Inv strict s →
    (s.observation ≠ none ↔ s.status = .halted) ∧
    (∀ x m pc, s.observation = some (x, m, pc) →
      x = s.x ∧ m = s.mem ∧ pc = s.pc ∧ pc.toNat = 4 * s.program.length ∧ step s = .fault .halted)

/-- 60_exceptions.md section 3: errors are precise. A step that ends `Faulted` or `Halted` keeps registers, memory, pc
and program; and its error is one of: the fetch error of that pc, or the `OutOfBounds` of a `lw` or `sw` at that pc, in
this order (the spec's own choices D5, D6, D26, logs 4 and 5, with the records of D11, log 13). A step never ends `LoadFailed`. -/
def Obligations.StepErrorsArePrecise : Prop :=
  ∀ s t : State, step s = .next t → t.status ≠ .running →
    t = { s with status := t.status } ∧
    ((t.status = .faulted (.pcMisaligned s.pc) ∧ s.pc.toNat % 4 ≠ 0) ∨
     (t.status = .halted ∧ s.pc.toNat = 4 * s.program.length) ∨
     (t.status = .faulted (.pcOutOfRange s.pc) ∧ s.pc.toNat % 4 = 0 ∧ s.program.length < s.pc.toNat / 4) ∨
     (∃ d a, fetch s.program s.pc = .instr d ∧ (d.instr.mnemonic = .lw ∨ d.instr.mnemonic = .sw) ∧
        t.status = .faulted (.outOfBounds .memory a s.pc) ∧ (a < 0 ∨ 255 < a)))

/-- 10_state.md section 3: after each instruction completes the pc is `(pc + 4) mod 2^32`, or `(pc + BranchImmediate)
mod 2^32` for a taken `beq` or `bne`. The wrap is the spec's own choice D2 (log 2), the branch immediate its reading D12
(log 10). -/
def Obligations.PcMovesByFourOrByTheBranchImmediate : Prop :=
  ∀ (s t : State) (d : Decoded), s.status = .running → fetch s.program s.pc = .instr d → step s = .next t →
    t.status = .running →
    (¬ BranchTaken d.instr s → t.pc.toNat = (s.pc.toNat + 4) % 2 ^ 32) ∧
    (BranchTaken d.instr s → ∃ off, resolvedImmediate d.instr = some off ∧
      (t.pc.toNat : Int) = ((s.pc.toNat : Int) + off) % 2 ^ 32)

/-- 43_branch.md section "Common facts": a branch completes whatever its target; a bad target is caught at the next
fetch. From a step that runs a branch, a target that is not a multiple of 4 makes the next step `PcMisaligned`, a target
past the end `PcOutOfRange`, the target `4*N` ends the run as `Halted`, with no register or memory word changed by either
step (the spec's own choices D4, D5, log 4, with the records of D11, log 13). -/
def Obligations.BranchTargetIsCaughtAtTheNextFetch : Prop :=
  ∀ (s t : State) (d : Decoded), s.status = .running → fetch s.program s.pc = .instr d → d.instr.format = .b →
    step s = .next t →
    t.status = .running ∧ t.x = s.x ∧ t.mem = s.mem ∧ t.program = s.program ∧
    (t.pc.toNat % 4 ≠ 0 → step t = .next { t with status := .faulted (.pcMisaligned t.pc) }) ∧
    (t.pc.toNat % 4 = 0 → t.program.length < t.pc.toNat / 4 →
      step t = .next { t with status := .faulted (.pcOutOfRange t.pc) }) ∧
    (t.pc.toNat = 4 * t.program.length → step t = .next { t with status := .halted })

/-- 40_control_datapath.md section 5: a run need not end. A `Running` machine whose pc is at `beq r, r, 0` repeats the
branch for ever: after any number of steps it is in the same state. -/
def Obligations.SelfBranchRunsForEver : Prop :=
  ∀ (s : State) (d : Decoded) (r : RegIdx), s.status = .running → fetch s.program s.pc = .instr d →
    d.instr = .beq r r 0#7 0#5 → ∀ n : Nat, Host.Core.run Sys2Proof.core n s = .next s

/-- The host's placing of one instruction: in every state, for a number that decodes, the very next step runs exactly
that instruction; registers and memory are as they were, and the pc too where it was a multiple of 4 (the model's
convention, log 6). -/
def Obligations.PlacedInstructionIsRunNext : Prop :=
  ∀ (s : State) (w : Nat) (i : Instr), decodeTableWord 32 w = some i →
    step (s.withFetchWord 32 w) = exec i (s.withFetchWord 32 w) ∧ (s.withFetchWord 32 w).x = s.x ∧
    (s.withFetchWord 32 w).mem = s.mem ∧ (s.withFetchWord 32 w).status = .running ∧
    (s.pc.toNat % 4 = 0 → (s.withFetchWord 32 w).pc = s.pc)

/-! ### Reset, load and the invariant -/

/-- 10_state.md section 7: at reset every register and every memory word is 0; the pc is 0 (the spec's own choice D3,
log 3), the program is empty and the status `Running`, as after the load of the empty text (the model's choice, log
6). -/
def Obligations.ResetIsZeroFilled : Prop :=
  (∀ q, State.reset.reg q = 0#32) ∧ (∀ a, State.reset.memRead a = 0#32) ∧ State.reset.pc = 0#32 ∧
  State.reset.program = [] ∧ State.reset.status = .running ∧ ∀ strict, loadText strict [] = .next State.reset

/-- 70_reset_and_hazards.md section 1: the text is split at each line feed, and blank lines take no index. The lines
hold no line feed, joining them with line feeds gives the text back, and the program lines are those that are not empty,
in order (the spec's own choice D8, log 9). -/
def Obligations.TextIsSplitAtLineFeeds : Prop :=
  ∀ text : List Char,
    (∀ l ∈ splitLines text, '\n' ∉ l) ∧ List.intercalate ['\n'] (splitLines text) = text ∧
    programLines text = (splitLines text).filter (fun l => decide (l ≠ []))

/-- 70_reset_and_hazards.md section 1: load. If every line decodes, the machine is at reset with the decoded lines as
its program, line `k` at entry `k`, and `Running`. If any line fails, the status is `LoadFailed` with the lowest-numbered
failing line, its error and its text, there is no program and the rest is at reset (the spec's own choices D9 and, for
the bound, D21; logs 9 and 12). A text of more than `2^30` lines, which this hardware cannot hold, is refused by the name
`programTooLong` (the refusal and its name are the model's, log 12). -/
def Obligations.LoadDecodesEveryLineOrNamesTheFirstBadOne : Prop :=
  (∀ (strict : Bool) (text : List Char), 2 ^ 30 < (programLines text).length →
    loadText strict text = .refused .programTooLong) ∧
  ∀ (strict : Bool) (text : List Char), (programLines text).length ≤ 2 ^ 30 →
    (∃ p : List Decoded, loadText strict text = .next { State.reset with program := p } ∧
      p.length = (programLines text).length ∧
      ∀ (k : Nat) (l : List Char) (d : Decoded), (programLines text)[k]? = some l → p[k]? = some d →
        decodeLine strict l = .ok d) ∨
    (∃ (k : Nat) (l : List Char) (e : DecodeError),
      loadText strict text = .next { State.reset with status := .loadFailed e k l } ∧
      (programLines text)[k]? = some l ∧ decodeLine strict l = .error e ∧
      ∀ (j : Nat) (m : List Char), j < k → (programLines text)[j]? = some m → ∃ d, decodeLine strict m = .ok d)

/-- The invariant holds at reset. Its memory clause is the model's canonical form (log 7), and the reset program and status
are the model's choice (log 6); the zeros are those of 10_state.md section 7. -/
def Obligations.ResetMeetsTheInvariant : Prop :=
  ∀ strict : Bool, Inv strict State.reset

/-- The invariant holds in every state that a load can leave, failed loads included. Its memory clause is the model's
canonical form (log 7, DESIGN CHOICE); its other clauses rest on the spec's own choices D4 to D6, D9, D12 and D21 (logs 4,
5, 9, 10, 12). -/
def Obligations.LoadMeetsTheInvariant : Prop :=
  ∀ (strict : Bool) (text : List Char) (s : State), loadText strict text = .next s → Inv strict s

/-- Every step keeps the invariant, from every state that meets it and not only on runs from reset: the memory stays in the
model's canonical form (log 7, DESIGN CHOICE) within its 256 words, the program stays within `2^30` entries and each entry stays its `raw` word decoded,
the pc stays even, and the status tells the truth about the state. The clauses on program, pc and status rest on the spec's
own choices D4 to D6, D12 and D21 (logs 4, 5, 10, 12). -/
def Obligations.StepKeepsTheInvariant : Prop :=
  ∀ (strict : Bool) (s t : State), Inv strict s → step s = .next t → Inv strict t

/-- 60_exceptions.md section 1: the numeric codes of the six errors (the spec's own choice D10, log 13), which are
distinct; the only error an instruction raises is `OutOfBounds`. -/
def Obligations.ErrorCodesAreTheListedOnes : Prop :=
  [ErrorName.malformedEncoding, .unsupportedOpcode, .unsupportedFunct, .outOfBounds, .pcMisaligned, .pcOutOfRange].map
    errorCode = [1, 2, 3, 4, 5, 6] ∧
  (∀ a b : ErrorName, errorCode a = errorCode b → a = b) ∧
  (∀ (i : Instr) (s t : State), s.status = .running → exec i s = .next t → t.status ≠ .running →
    statusErrorName t.status = some .outOfBounds)
end

