-- ==== Sys2Proof/Laws/State.lean ====
section
/-! SUPPORT. One lemma per field per update of the state, true by rfl, and the register file's read after write. -/

namespace Sys2Proof.Machine

@[simp] theorem State.setReg_mem (r : RegIdx) (v : Word) (s : State) : (s.setReg r v).mem = s.mem := rfl
@[simp] theorem State.setReg_pc (r : RegIdx) (v : Word) (s : State) : (s.setReg r v).pc = s.pc := rfl
@[simp] theorem State.setReg_program (r : RegIdx) (v : Word) (s : State) : (s.setReg r v).program = s.program := rfl
@[simp] theorem State.setReg_status (r : RegIdx) (v : Word) (s : State) : (s.setReg r v).status = s.status := rfl

@[simp] theorem State.setMem_x (a : Nat) (v : Word) (s : State) : (s.setMem a v).x = s.x := rfl
@[simp] theorem State.setMem_mem (a : Nat) (v : Word) (s : State) : (s.setMem a v).mem = s.mem.write a v := rfl
@[simp] theorem State.setMem_pc (a : Nat) (v : Word) (s : State) : (s.setMem a v).pc = s.pc := rfl
@[simp] theorem State.setMem_program (a : Nat) (v : Word) (s : State) : (s.setMem a v).program = s.program := rfl
@[simp] theorem State.setMem_status (a : Nat) (v : Word) (s : State) : (s.setMem a v).status = s.status := rfl

@[simp] theorem State.setPc_x (p : Word) (s : State) : (s.setPc p).x = s.x := rfl
@[simp] theorem State.setPc_mem (p : Word) (s : State) : (s.setPc p).mem = s.mem := rfl
@[simp] theorem State.setPc_pc (p : Word) (s : State) : (s.setPc p).pc = p := rfl
@[simp] theorem State.setPc_program (p : Word) (s : State) : (s.setPc p).program = s.program := rfl
@[simp] theorem State.setPc_status (p : Word) (s : State) : (s.setPc p).status = s.status := rfl

@[simp] theorem State.raise_x (e : ExecError) (s : State) : (s.raise e).x = s.x := rfl
@[simp] theorem State.raise_mem (e : ExecError) (s : State) : (s.raise e).mem = s.mem := rfl
@[simp] theorem State.raise_pc (e : ExecError) (s : State) : (s.raise e).pc = s.pc := rfl
@[simp] theorem State.raise_program (e : ExecError) (s : State) : (s.raise e).program = s.program := rfl
@[simp] theorem State.raise_status (e : ExecError) (s : State) : (s.raise e).status = .faulted e := rfl

@[simp] theorem State.regEffect_regWrite (rd : RegIdx) (v : Word) (s : State) :
    (s.regEffect rd v).regWrite = some (rd, v) := rfl
@[simp] theorem State.regEffect_memWrite (rd : RegIdx) (v : Word) (s : State) : (s.regEffect rd v).memWrite = none := rfl
@[simp] theorem State.regEffect_nextPc (rd : RegIdx) (v : Word) (s : State) :
    (s.regEffect rd v).nextPc = pcPlus4 s.pc := rfl
@[simp] theorem State.memEffect_regWrite (a : Nat) (v : Word) (s : State) : (s.memEffect a v).regWrite = none := rfl
@[simp] theorem State.memEffect_memWrite (a : Nat) (v : Word) (s : State) :
    (s.memEffect a v).memWrite = some (a, v) := rfl
@[simp] theorem State.memEffect_nextPc (a : Nat) (v : Word) (s : State) :
    (s.memEffect a v).nextPc = pcPlus4 s.pc := rfl
@[simp] theorem pcEffect_regWrite (p : Word) : (pcEffect p).regWrite = none := rfl
@[simp] theorem pcEffect_memWrite (p : Word) : (pcEffect p).memWrite = none := rfl
@[simp] theorem pcEffect_nextPc (p : Word) : (pcEffect p).nextPc = p := rfl

/-- Reading a register depends on the register file alone. -/
theorem State.reg_congr {s t : State} (h : t.x = s.x) (q : RegIdx) : t.reg q = s.reg q := by
  simp [State.reg, h]

@[simp] theorem State.setMem_reg (a : Nat) (v : Word) (s : State) (q : RegIdx) : (s.setMem a v).reg q = s.reg q := rfl
@[simp] theorem State.setPc_reg (p : Word) (s : State) (q : RegIdx) : (s.setPc p).reg q = s.reg q := rfl
@[simp] theorem State.raise_reg (e : ExecError) (s : State) (q : RegIdx) : (s.raise e).reg q = s.reg q := rfl

/-- Register read after write, for every register, `x0` included (10_state.md R15). -/
theorem State.setReg_reg (r : RegIdx) (v : Word) (s : State) (q : RegIdx) :
    (s.setReg r v).reg q = if q = r then v else s.reg q := by
  simp only [State.reg, State.setReg, Vector.getElem_set, BitVec.toNat_inj]
  simp only [eq_comm]

@[simp] theorem State.setReg_reg_self (r : RegIdx) (v : Word) (s : State) : (s.setReg r v).reg r = v := by
  simp [State.setReg_reg]

theorem State.setReg_reg_ne {q r : RegIdx} (h : q ≠ r) (v : Word) (s : State) : (s.setReg r v).reg q = s.reg q := by
  simp [State.setReg_reg, h]

/-- Every register is 0 at reset (10_state.md R28). -/
@[simp] theorem State.reset_reg (q : RegIdx) : State.reset.reg q = 0#32 := by
  simp [State.reg, State.reset]

end Sys2Proof.Machine
end

