-- ==== Sys2Proof/Laws/Memory.lean ====
section
/-! SUPPORT. The data memory: read after write, and that every memory operation keeps the canonical form. -/

namespace Sys2Proof.Machine

/-! ### Reads -/

theorem Memory.read_clear (m : Memory) (a b : Nat) : (m.clear a).read b = if b = a then 0#32 else m.read b := by
  induction m with
  | nil => simp [Memory.clear, Memory.read]
  | cons c rest ih =>
    obtain ⟨k, u⟩ := c
    by_cases hk : k = a
    · subst hk
      by_cases hb : k = b <;> simp_all [Memory.clear, Memory.read]
    · by_cases hb : k = b
      · subst hb
        simp [Memory.clear, Memory.read, hk]
      · simpa [Memory.clear, Memory.read, hk, hb] using ih

theorem Memory.read_clear_ne {m : Memory} {a b : Nat} (h : b ≠ a) : (m.clear a).read b = m.read b := by
  simp [Memory.read_clear, h]

/-- Placing at an index that no entry has. -/
theorem Memory.read_place (m : Memory) (a b : Nat) (v : Word) (h : ∀ c ∈ m, c.1 ≠ a) :
    (m.place a v).read b = if b = a then v else m.read b := by
  induction m with
  | nil => simp [Memory.place, Memory.read, eq_comm]
  | cons c rest ih =>
    obtain ⟨k, u⟩ := c
    have hk : k ≠ a := h (k, u) (by simp)
    have ih := ih (fun c hc => h c (by simp [hc]))
    by_cases hlt : a < k
    · simp [Memory.place, hlt, Memory.read, eq_comm]
    · simp only [Memory.place, hlt, if_false, Memory.read, ih]
      by_cases hkb : k = b <;> simp_all

theorem Memory.clear_ne (m : Memory) (a : Nat) : ∀ c ∈ m.clear a, c.1 ≠ a := by
  intro c hc
  simpa using (List.mem_filter.1 hc).2

/-- A write in one equation: the word written, and every other word as before. -/
theorem Memory.read_write (m : Memory) (a b : Nat) (v : Word) :
    (m.write a v).read b = if b = a then v else m.read b := by
  unfold Memory.write
  split
  · next hv => simp [Memory.read_clear, hv]
  · rw [Memory.read_place _ _ _ _ (Memory.clear_ne m a)]
    by_cases hb : b = a <;> simp [hb, Memory.read_clear]

@[simp] theorem State.setMem_memRead (a b : Nat) (v : Word) (s : State) :
    (s.setMem a v).memRead b = if b = a then v else s.memRead b := Memory.read_write s.mem a b v
@[simp] theorem State.setReg_memRead (r : RegIdx) (v : Word) (s : State) (b : Nat) :
    (s.setReg r v).memRead b = s.memRead b := rfl
@[simp] theorem State.setPc_memRead (p : Word) (s : State) (b : Nat) : (s.setPc p).memRead b = s.memRead b := rfl
@[simp] theorem State.raise_memRead (e : ExecError) (s : State) (b : Nat) : (s.raise e).memRead b = s.memRead b := rfl
@[simp] theorem State.reset_memRead (b : Nat) : State.reset.memRead b = 0#32 := rfl

/-! ### The canonical form -/

@[simp] theorem Memory.wfFrom_nil (lo : Nat) : Memory.wfFrom lo [] = true := rfl

theorem Memory.wfFrom_cons (lo k : Nat) (u : Word) (rest : Memory) :
    Memory.wfFrom lo ((k, u) :: rest) = true ↔
      lo ≤ k ∧ k < 256 ∧ u ≠ 0#32 ∧ Memory.wfFrom (k + 1) rest = true := by
  simp only [Memory.wfFrom, Bool.and_eq_true, decide_eq_true_eq, and_assoc]
  exact Iff.rfl

theorem Memory.wfFrom_mono {lo lo' : Nat} (h : lo' ≤ lo) {m : Memory} (hm : Memory.wfFrom lo m = true) :
    Memory.wfFrom lo' m = true := by
  cases m with
  | nil => rfl
  | cons c rest =>
    obtain ⟨k, u⟩ := c
    rw [Memory.wfFrom_cons] at hm ⊢
    exact ⟨by omega, hm.2⟩

theorem Memory.wfFrom_clear (m : Memory) (lo a : Nat) (hm : Memory.wfFrom lo m = true) :
    Memory.wfFrom lo (m.clear a) = true := by
  induction m generalizing lo with
  | nil => rfl
  | cons c rest ih =>
    obtain ⟨k, u⟩ := c
    rw [Memory.wfFrom_cons] at hm
    obtain ⟨h1, h2, h3, h4⟩ := hm
    have hr := ih (k + 1) h4
    by_cases hk : k = a
    · simpa [Memory.clear, hk] using Memory.wfFrom_mono (lo' := lo) (by omega) hr
    · have : Memory.clear ((k, u) :: rest) a = (k, u) :: Memory.clear rest a := by simp [Memory.clear, hk]
      rw [this, Memory.wfFrom_cons]
      exact ⟨h1, h2, h3, hr⟩

theorem Memory.wfFrom_place (m : Memory) (lo a : Nat) (v : Word) (hm : Memory.wfFrom lo m = true)
    (hne : ∀ c ∈ m, c.1 ≠ a) (hlo : lo ≤ a) (ha : a < 256) (hv : v ≠ 0#32) :
    Memory.wfFrom lo (m.place a v) = true := by
  induction m generalizing lo with
  | nil => simp [Memory.place, Memory.wfFrom_cons, hlo, ha, hv]
  | cons c rest ih =>
    obtain ⟨k, u⟩ := c
    rw [Memory.wfFrom_cons] at hm
    obtain ⟨h1, h2, h3, h4⟩ := hm
    have hk : k ≠ a := hne (k, u) (by simp)
    by_cases hlt : a < k
    · simp only [Memory.place, hlt, if_true, Memory.wfFrom_cons]
      exact ⟨hlo, ha, hv, by omega, h2, h3, h4⟩
    · simp only [Memory.place, hlt, if_false, Memory.wfFrom_cons]
      exact ⟨h1, h2, h3, ih (k + 1) h4 (fun c hc => hne c (by simp [hc])) (by omega)⟩

/-- A write inside 0..255 keeps the canonical form. -/
theorem Memory.wf_write {m : Memory} (hm : m.wf = true) {a : Nat} (ha : a < 256) (v : Word) :
    (m.write a v).wf = true := by
  unfold Memory.write
  split
  · exact Memory.wfFrom_clear m 0 a hm
  · next hv => exact Memory.wfFrom_place _ 0 a v (Memory.wfFrom_clear m 0 a hm) (Memory.clear_ne m a) (by omega) ha hv

@[simp] theorem State.reset_mem_wf : State.reset.mem.wf = true := rfl

end Sys2Proof.Machine
end

