-- ==== Sys2Proof/Laws/Ops.lean ====
section
/-! SUPPORT. One lemma per shared operation that says once everything it can do: commit, settle, the bounds check, fetch,
the pc incrementer. -/

namespace Sys2Proof.Machine

/-! ### Commit -/

@[simp] theorem State.commitReg_none (s : State) : s.commitReg none = s := rfl
@[simp] theorem State.commitReg_some (r : RegIdx) (v : Word) (s : State) : s.commitReg (some (r, v)) = s.setReg r v := rfl
@[simp] theorem State.commitMem_none (s : State) : s.commitMem none = s := rfl
@[simp] theorem State.commitMem_some (a : Nat) (v : Word) (s : State) : s.commitMem (some (a, v)) = s.setMem a v := rfl

@[simp] theorem State.commit_pc (e : Effect) (s : State) : (s.commit e).pc = e.nextPc := rfl

@[simp] theorem State.commit_program (e : Effect) (s : State) : (s.commit e).program = s.program := by
  rcases e with ⟨_ | ⟨_, _⟩, _ | ⟨_, _⟩, _⟩ <;> rfl

@[simp] theorem State.commit_status (e : Effect) (s : State) : (s.commit e).status = s.status := by
  rcases e with ⟨_ | ⟨_, _⟩, _ | ⟨_, _⟩, _⟩ <;> rfl

/-- The register file after a commit. -/
theorem State.commit_reg (e : Effect) (s : State) (q : RegIdx) :
    (s.commit e).reg q =
      match e.regWrite with
      | none => s.reg q
      | some (r, v) => if q = r then v else s.reg q := by
  rcases e with ⟨_ | ⟨_, _⟩, _ | ⟨_, _⟩, _⟩ <;> simp [State.commit, State.setReg_reg]

/-- The memory after a commit, as data. -/
theorem State.commit_mem (e : Effect) (s : State) :
    (s.commit e).mem =
      match e.memWrite with
      | none => s.mem
      | some (a, v) => s.mem.write a v := by
  rcases e with ⟨_ | ⟨_, _⟩, _ | ⟨_, _⟩, _⟩ <;> simp [State.commit]

/-- The memory after a commit, read word by word. -/
theorem State.commit_memRead (e : Effect) (s : State) (a : Nat) :
    (s.commit e).memRead a =
      match e.memWrite with
      | none => s.memRead a
      | some (b, v) => if a = b then v else s.memRead a := by
  rcases e with ⟨_ | ⟨_, _⟩, _ | ⟨_, _⟩, _⟩ <;> simp [State.commit]

/-- The register file as a whole is unchanged by a commit that writes no register. -/
theorem State.commit_x_of_none {e : Effect} (h : e.regWrite = none) (s : State) : (s.commit e).x = s.x := by
  rcases e with ⟨_ | ⟨_, _⟩, _ | ⟨_, _⟩, _⟩ <;> simp_all [State.commit]

/-! ### Settle -/

@[simp] theorem State.settle_ok (e : Effect) (s : State) : s.settle (.ok e) = .next (s.commit e) := rfl
@[simp] theorem State.settle_error (e : ExecError) (s : State) : s.settle (.error e) = .next (s.raise e) := rfl

/-- Settling never changes the program. -/
theorem State.settle_program {r : Except ExecError Effect} {s t : State} (h : s.settle r = .next t) :
    t.program = s.program := by
  cases r <;> simp only [State.settle_ok, State.settle_error, Host.Outcome.next.injEq] at h <;> subst h <;> simp

/-! ### The bounds check -/

/-- Everything the bounds check can answer. -/
theorem checkIndex_cases (a : Int) (pc : Word) :
    (0 ≤ a ∧ a ≤ 255 ∧ checkIndex a pc = .ok a.toNat) ∨
      ((a < 0 ∨ 255 < a) ∧ checkIndex a pc = .error (.outOfBounds .memory a pc)) := by
  unfold checkIndex
  split <;> [left; right] <;> constructor <;> first | omega | simp_all

theorem checkIndex_inside {a : Int} (h : 0 ≤ a ∧ a ≤ 255) (pc : Word) : checkIndex a pc = .ok a.toNat := by
  simp [checkIndex, h]

theorem checkIndex_outside {a : Int} (h : a < 0 ∨ 255 < a) (pc : Word) :
    checkIndex a pc = .error (.outOfBounds .memory a pc) := by
  rw [checkIndex, if_neg (by omega)]

theorem checkIndex_ok {a : Int} {pc : Word} {k : Nat} (h : checkIndex a pc = .ok k) :
    0 ≤ a ∧ a ≤ 255 ∧ k = a.toNat ∧ k < 256 := by
  rcases checkIndex_cases a pc with ⟨h0, h1, h2⟩ | ⟨-, h2⟩ <;> rw [h2] at h
  · cases h
    exact ⟨h0, h1, rfl, by omega⟩
  · cases h

theorem checkIndex_error {a : Int} {pc : Word} {e : ExecError} (h : checkIndex a pc = .error e) :
    (a < 0 ∨ 255 < a) ∧ e = .outOfBounds .memory a pc := by
  rcases checkIndex_cases a pc with ⟨-, -, h2⟩ | ⟨h1, h2⟩ <;> rw [h2] at h <;> cases h
  exact ⟨h1, rfl⟩

/-! ### Program counter -/

theorem pcPlus4_toNat (pc : Word) : (pcPlus4 pc).toNat = (pc.toNat + 4) % 2 ^ 32 := by
  simp [pcPlus4, Config.pcStep, BitVec.toNat_add]

/-- Adding an integer to a word, as numbers. -/
theorem add_toWord_toNat (pc : Word) (d : Int) :
    ((pc + toWord d).toNat : Int) = ((pc.toNat : Int) + d) % 2 ^ 32 := by
  simp only [toWord, BitVec.toNat_add, BitVec.toNat_ofInt]
  omega

/-- The branch target, as numbers. -/
theorem branchTarget_toNat (pc : Word) (immHi : BitVec 7) (immLo : BitVec 5) :
    ((branchTarget pc immHi immLo).toNat : Int) = ((pc.toNat : Int) + branchImmediate immHi immLo) % 2 ^ 32 :=
  add_toWord_toNat pc _

/-- The branch immediate is even. 30_encoding.md R66. -/
theorem branchImmediate_even (immHi : BitVec 7) (immLo : BitVec 5) : branchImmediate immHi immLo % 2 = 0 := by
  have h : (branchField immHi immLo).toNat % 2 = 0 := by
    have : (branchField immHi immLo).getLsbD 0 = false := by
      rw [branchField, BitVec.getLsbD_setWidth, BitVec.getLsbD_append]
      simp
    rw [BitVec.getLsbD, Nat.testBit_zero] at this
    simpa using this
  unfold branchImmediate
  split <;> omega

/-! ### Fetch -/

/-- Everything a fetch can answer. 40_control_datapath.md R91. -/
theorem fetch_cases (p : List Decoded) (pc : Word) :
    (pc.toNat % 4 ≠ 0 ∧ fetch p pc = .fault (.pcMisaligned pc)) ∨
    (pc.toNat = 4 * p.length ∧ fetch p pc = .endOfProgram) ∨
    (pc.toNat % 4 = 0 ∧ p.length < pc.toNat / 4 ∧ fetch p pc = .fault (.pcOutOfRange pc)) ∨
    (∃ (k : Nat) (h : k < p.length), pc.toNat = 4 * k ∧ fetch p pc = .instr p[k]) := by
  unfold fetch
  split
  · next h => exact .inl ⟨h, rfl⟩
  · next h =>
    right
    split
    · next h2 => exact .inl ⟨by omega, rfl⟩
    · next h2 =>
      right
      rcases Nat.lt_or_ge (pc.toNat / 4) p.length with hlt | hge
      · refine .inr ⟨pc.toNat / 4, hlt, by omega, ?_⟩
        simp [List.getElem?_eq_getElem hlt]
      · refine .inl ⟨by omega, by omega, ?_⟩
        simp [List.getElem?_eq_none hge]

/-- A fetched instruction is an entry of the program. -/
theorem fetch_mem {p : List Decoded} {pc : Word} {d : Decoded} (h : fetch p pc = .instr d) : d ∈ p := by
  rcases fetch_cases p pc with ⟨-, h2⟩ | ⟨-, h2⟩ | ⟨-, -, h2⟩ | ⟨k, hk, -, h2⟩ <;> rw [h2] at h <;> cases h
  exact List.getElem_mem hk

end Sys2Proof.Machine
end

