-- ==== Sys2Proof/Laws/Datapath.lean ====
section
/-! SUPPORT. The control vector of each instruction, and the units of the datapath as equations. -/

namespace Sys2Proof.Machine

@[simp] theorem controlVector_add (rd rs1 rs2 : RegIdx) : controlVector (.add rd rs1 rs2) =
    ⟨true, true, false, false, false, false, false, true, false⟩ := rfl
@[simp] theorem controlVector_sub (rd rs1 rs2 : RegIdx) : controlVector (.sub rd rs1 rs2) =
    ⟨true, true, false, false, false, false, false, true, false⟩ := rfl
@[simp] theorem controlVector_and (rd rs1 rs2 : RegIdx) : controlVector (.and rd rs1 rs2) =
    ⟨true, true, false, false, false, false, false, true, false⟩ := rfl
@[simp] theorem controlVector_or (rd rs1 rs2 : RegIdx) : controlVector (.or rd rs1 rs2) =
    ⟨true, true, false, false, false, false, false, true, false⟩ := rfl
@[simp] theorem controlVector_addi (rd rs1 : RegIdx) (imm : BitVec 12) (f3 : BitVec 3) :
    controlVector (.addi rd rs1 imm f3) = ⟨false, true, false, false, false, false, true, false, false⟩ := rfl
@[simp] theorem controlVector_lw (rd rs1 : RegIdx) (imm : BitVec 12) (f3 : BitVec 3) :
    controlVector (.lw rd rs1 imm f3) = ⟨false, true, false, true, true, false, true, false, false⟩ := rfl
@[simp] theorem controlVector_sw (rs1 rs2 : RegIdx) (hi : BitVec 7) (lo : BitVec 5) (f3 : BitVec 3) :
    controlVector (.sw rs1 rs2 hi lo f3) = ⟨false, false, false, false, false, true, true, false, false⟩ := rfl
@[simp] theorem controlVector_beq (rs1 rs2 : RegIdx) (hi : BitVec 7) (lo : BitVec 5) :
    controlVector (.beq rs1 rs2 hi lo) = ⟨false, false, true, false, false, false, false, false, true⟩ := rfl
@[simp] theorem controlVector_bne (rs1 rs2 : RegIdx) (hi : BitVec 7) (lo : BitVec 5) :
    controlVector (.bne rs1 rs2 hi lo) = ⟨false, false, true, false, false, false, false, false, true⟩ := rfl

/-- The ALU's subtraction gives `Zero` exactly on equal inputs. 40_control_datapath.md R89. -/
@[simp] theorem zeroLine_sub (a b : Word) : zeroLine (a - b) = decide (a = b) := by
  by_cases h : a = b <;> simp [zeroLine, h, BitVec.sub_eq_iff_eq_add]

/-- Everything the datapath's bounds check can answer. -/
theorem datapathCheck_cases (c : ControlVector) (a b y pc : Word) :
    (((c.memRead = false ∧ c.memWrite = false) ∨ adderIndexOk y = true) ∧ datapathCheck c a b y pc = .ok ()) ∨
    ((c.memRead = true ∨ c.memWrite = true) ∧ adderIndexOk y = false ∧
      datapathCheck c a b y pc = .error (.outOfBounds .memory (signed32 a + signed32 b) pc)) := by
  unfold datapathCheck
  cases c.memRead <;> cases c.memWrite <;> cases adderIndexOk y <;> simp

/-- The branch-target adder of each format: driven for B and S, not for R and I. -/
theorem btarget_of_format (pc : Word) (i : Instr) :
    (∃ hi lo, i.immHi = some hi ∧ i.immLo = some lo ∧ btarget pc i = some (branchTarget pc hi lo) ∧
      (i.format = .s ∨ i.format = .b)) ∨
    (btarget pc i = none ∧ (i.format = .r ∨ i.format = .i)) := by
  cases i <;> simp [btarget, Instr.immHi, Instr.immLo, Instr.format]

@[simp] theorem nextPc_not_branch (cond : Bool) (target : Option Word) (plus4 : Word) :
    nextPc false cond target plus4 = some plus4 := rfl
@[simp] theorem nextPc_branch (cond : Bool) (target : Option Word) (plus4 : Word) :
    nextPc true cond target plus4 = if cond then target else some plus4 := by
  cases cond <;> rfl

end Sys2Proof.Machine
end

