-- ==== Sys2Proof/Laws/Encode.lean ====
section
/-! SUPPORT. The fields of an encoded word, format by format, and the word rebuilt from its fields (spec/30_encoding.md
R48 to R51). -/

namespace Sys2Proof

section FormatR
variable (funct7 : BitVec 7) (rs2 rs1 : RegIdx) (funct3 : BitVec 3) (rd : RegIdx) (op : BitVec 7)

@[simp] theorem opcodeOf_encodeR : opcodeOf (encodeR funct7 rs2 rs1 funct3 rd op) = op := by
  ext i hi
  simp [encodeR, opcodeOf]
  grind

@[simp] theorem rdOf_encodeR : rdOf (encodeR funct7 rs2 rs1 funct3 rd op) = rd := by
  ext i hi
  simp [encodeR, rdOf]
  grind

@[simp] theorem funct3Of_encodeR : funct3Of (encodeR funct7 rs2 rs1 funct3 rd op) = funct3 := by
  ext i hi
  simp [encodeR, funct3Of]
  grind

@[simp] theorem rs1Of_encodeR : rs1Of (encodeR funct7 rs2 rs1 funct3 rd op) = rs1 := by
  ext i hi
  simp [encodeR, rs1Of]
  grind

@[simp] theorem rs2Of_encodeR : rs2Of (encodeR funct7 rs2 rs1 funct3 rd op) = rs2 := by
  ext i hi
  simp [encodeR, rs2Of]
  grind

@[simp] theorem funct7Of_encodeR : funct7Of (encodeR funct7 rs2 rs1 funct3 rd op) = funct7 := by
  ext i hi
  simp [encodeR, funct7Of]
  grind

end FormatR

section FormatI
variable (imm : BitVec 12) (rs1 : RegIdx) (funct3 : BitVec 3) (rd : RegIdx) (op : BitVec 7)

@[simp] theorem opcodeOf_encodeI : opcodeOf (encodeI imm rs1 funct3 rd op) = op := by
  ext i hi
  simp [encodeI, opcodeOf]
  grind

@[simp] theorem rdOf_encodeI : rdOf (encodeI imm rs1 funct3 rd op) = rd := by
  ext i hi
  simp [encodeI, rdOf]
  grind

@[simp] theorem funct3Of_encodeI : funct3Of (encodeI imm rs1 funct3 rd op) = funct3 := by
  ext i hi
  simp [encodeI, funct3Of]
  grind

@[simp] theorem rs1Of_encodeI : rs1Of (encodeI imm rs1 funct3 rd op) = rs1 := by
  ext i hi
  simp [encodeI, rs1Of]
  grind

@[simp] theorem immOf_encodeI : immOf (encodeI imm rs1 funct3 rd op) = imm := by
  ext i hi
  simp [encodeI, immOf]
  grind

end FormatI

section FormatS
variable (immHi : BitVec 7) (rs2 rs1 : RegIdx) (funct3 : BitVec 3) (immLo : BitVec 5) (op : BitVec 7)

@[simp] theorem opcodeOf_encodeS : opcodeOf (encodeS immHi rs2 rs1 funct3 immLo op) = op := by
  ext i hi
  simp [encodeS, opcodeOf]
  grind

@[simp] theorem immLoOf_encodeS : immLoOf (encodeS immHi rs2 rs1 funct3 immLo op) = immLo := by
  ext i hi
  simp [encodeS, immLoOf]
  grind

@[simp] theorem funct3Of_encodeS : funct3Of (encodeS immHi rs2 rs1 funct3 immLo op) = funct3 := by
  ext i hi
  simp [encodeS, funct3Of]
  grind

@[simp] theorem rs1Of_encodeS : rs1Of (encodeS immHi rs2 rs1 funct3 immLo op) = rs1 := by
  ext i hi
  simp [encodeS, rs1Of]
  grind

@[simp] theorem rs2Of_encodeS : rs2Of (encodeS immHi rs2 rs1 funct3 immLo op) = rs2 := by
  ext i hi
  simp [encodeS, rs2Of]
  grind

@[simp] theorem immHiOf_encodeS : immHiOf (encodeS immHi rs2 rs1 funct3 immLo op) = immHi := by
  ext i hi
  simp [encodeS, immHiOf]
  grind

end FormatS

/-! ### A word is made of its fields -/

theorem encodeR_fields (w : Word) :
    encodeR (funct7Of w) (rs2Of w) (rs1Of w) (funct3Of w) (rdOf w) (opcodeOf w) = w := by
  ext i hi
  simp [encodeR, funct7Of, rs2Of, rs1Of, funct3Of, rdOf, opcodeOf]
  grind

theorem encodeI_fields (w : Word) : encodeI (immOf w) (rs1Of w) (funct3Of w) (rdOf w) (opcodeOf w) = w := by
  ext i hi
  simp [encodeI, immOf, rs1Of, funct3Of, rdOf, opcodeOf]
  grind

theorem encodeS_fields (w : Word) :
    encodeS (immHiOf w) (rs2Of w) (rs1Of w) (funct3Of w) (immLoOf w) (opcodeOf w) = w := by
  ext i hi
  simp [encodeS, immHiOf, rs2Of, rs1Of, funct3Of, immLoOf, opcodeOf]
  grind

/-! ### The decision tables -/

/-- The opcode table read backwards: which opcodes have a format. -/
theorem formatOf_cases (op : BitVec 7) :
    (op = 0b0110011#7 ∧ formatOf op = some .r) ∨ (op = 0b0000011#7 ∧ formatOf op = some .i) ∨
    (op = 0b0010011#7 ∧ formatOf op = some .i) ∨ (op = 0b0100011#7 ∧ formatOf op = some .s) ∨
    (op = 0b1100011#7 ∧ formatOf op = some .b) ∨
    (op ∉ [0b0110011#7, 0b0000011#7, 0b0010011#7, 0b0100011#7, 0b1100011#7] ∧ formatOf op = none) := by
  revert op
  decide

end Sys2Proof
end

