-- ==== Sys2Proof/Laws/Decode.lean ====
section
/-! SUPPORT. What decoding a word can answer, said once (spec/30_encoding.md R58). -/

namespace Sys2Proof

/-- Every outcome of decoding a word: the nine instructions, each with the fields that select it, and the four ways to
fail. -/
theorem decodeWord_cases (strict : Bool) (w : Word) :
    (opcodeOf w = 0b0110011#7 ∧ funct3Of w = 0b000#3 ∧ funct7Of w = 0b0000000#7 ∧
      decodeWord strict w = .ok (.add (rdOf w) (rs1Of w) (rs2Of w))) ∨
    (opcodeOf w = 0b0110011#7 ∧ funct3Of w = 0b000#3 ∧ funct7Of w = 0b0100000#7 ∧
      decodeWord strict w = .ok (.sub (rdOf w) (rs1Of w) (rs2Of w))) ∨
    (opcodeOf w = 0b0110011#7 ∧ funct3Of w = 0b111#3 ∧ funct7Of w = 0b0000000#7 ∧
      decodeWord strict w = .ok (.and (rdOf w) (rs1Of w) (rs2Of w))) ∨
    (opcodeOf w = 0b0110011#7 ∧ funct3Of w = 0b110#3 ∧ funct7Of w = 0b0000000#7 ∧
      decodeWord strict w = .ok (.or (rdOf w) (rs1Of w) (rs2Of w))) ∨
    (opcodeOf w = 0b0010011#7 ∧ (strict = false ∨ funct3Of w = 0b000#3) ∧
      decodeWord strict w = .ok (.addi (rdOf w) (rs1Of w) (immOf w) (funct3Of w))) ∨
    (opcodeOf w = 0b0000011#7 ∧ (strict = false ∨ funct3Of w = 0b010#3) ∧
      decodeWord strict w = .ok (.lw (rdOf w) (rs1Of w) (immOf w) (funct3Of w))) ∨
    (opcodeOf w = 0b0100011#7 ∧ (strict = false ∨ funct3Of w = 0b010#3) ∧
      decodeWord strict w = .ok (.sw (rs1Of w) (rs2Of w) (immHiOf w) (immLoOf w) (funct3Of w))) ∨
    (opcodeOf w = 0b1100011#7 ∧ funct3Of w = 0b000#3 ∧
      decodeWord strict w = .ok (.beq (rs1Of w) (rs2Of w) (immHiOf w) (immLoOf w))) ∨
    (opcodeOf w = 0b1100011#7 ∧ funct3Of w = 0b001#3 ∧
      decodeWord strict w = .ok (.bne (rs1Of w) (rs2Of w) (immHiOf w) (immLoOf w))) ∨
    (opcodeOf w = 0b0110011#7 ∧ ¬ (funct3Of w = 0b000#3 ∧ funct7Of w = 0b0000000#7) ∧
      ¬ (funct3Of w = 0b000#3 ∧ funct7Of w = 0b0100000#7) ∧ ¬ (funct3Of w = 0b111#3 ∧ funct7Of w = 0b0000000#7) ∧
      ¬ (funct3Of w = 0b110#3 ∧ funct7Of w = 0b0000000#7) ∧
      decodeWord strict w = .error (.unsupportedFunct (opcodeOf w) (funct3Of w) (some (funct7Of w)))) ∨
    (strict = true ∧ (opcodeOf w = 0b0010011#7 ∧ funct3Of w ≠ 0b000#3 ∨ opcodeOf w = 0b0000011#7 ∧ funct3Of w ≠ 0b010#3 ∨
        opcodeOf w = 0b0100011#7 ∧ funct3Of w ≠ 0b010#3) ∧
      decodeWord strict w = .error (.unsupportedFunct (opcodeOf w) (funct3Of w) none)) ∨
    (opcodeOf w = 0b1100011#7 ∧ funct3Of w ≠ 0b000#3 ∧ funct3Of w ≠ 0b001#3 ∧
      decodeWord strict w = .error (.unsupportedFunct (opcodeOf w) (funct3Of w) none)) ∨
    (opcodeOf w ∉ [0b0110011#7, 0b0000011#7, 0b0010011#7, 0b0100011#7, 0b1100011#7] ∧
      decodeWord strict w = .error (.unsupportedOpcode (opcodeOf w))) := by
  unfold decodeWord
  rcases formatOf_cases (opcodeOf w) with ⟨ho, hf⟩ | ⟨ho, hf⟩ | ⟨ho, hf⟩ | ⟨ho, hf⟩ | ⟨ho, hf⟩ | ⟨ho, hf⟩
  · simp only [hf, resolveMnemonic]
    by_cases h1 : funct3Of w = 0b000#3 ∧ funct7Of w = 0b0000000#7
    · simp [ho, h1, mnemonicR, instrOf]
    by_cases h2 : funct3Of w = 0b000#3 ∧ funct7Of w = 0b0100000#7
    · simp [ho, h2, mnemonicR, instrOf]
    by_cases h3 : funct3Of w = 0b111#3 ∧ funct7Of w = 0b0000000#7
    · simp [ho, h3, mnemonicR, instrOf]
    by_cases h4 : funct3Of w = 0b110#3 ∧ funct7Of w = 0b0000000#7
    · simp [ho, h4, mnemonicR, instrOf]
    simp [ho, mnemonicR, h1, h2, h3, h4]
  · simp only [hf, resolveMnemonic]
    simp only [mnemonicI, ho]
    cases strict <;> by_cases h : funct3Of w = 0b010#3 <;> simp [h, instrOf]
  · simp only [hf, resolveMnemonic]
    simp only [mnemonicI, ho]
    cases strict <;> by_cases h : funct3Of w = 0b000#3 <;> simp [h, instrOf]
  · simp only [hf, resolveMnemonic]
    simp only [mnemonicS, ho]
    cases strict <;> by_cases h : funct3Of w = 0b010#3 <;> simp [h, instrOf]
  · simp only [hf, resolveMnemonic]
    simp only [mnemonicB, ho]
    by_cases h : funct3Of w = 0b000#3
    · simp [h, instrOf]
    · by_cases h' : funct3Of w = 0b001#3 <;> simp [h, h', instrOf]
  · simp only [hf]
    simp_all

/-- A word that decodes does so through its format and its mnemonic, and the instruction has that mnemonic. -/
theorem decodeWord_ok {strict : Bool} {w : Word} {i : Instr} (h : decodeWord strict w = .ok i) :
    ∃ fmt m, formatOf (opcodeOf w) = some fmt ∧
      resolveMnemonic strict fmt (opcodeOf w) (funct3Of w) (funct7Of w) = some m ∧ i = instrOf m w ∧ i.mnemonic = m := by
  unfold decodeWord at h
  split at h
  · cases h
  · next fmt hf =>
    split at h
    · cases h
    · next m hm =>
      cases h
      exact ⟨fmt, m, hf, hm, rfl, by cases m <;> rfl⟩

end Sys2Proof
end

