-- ==== Sys2Proof/Laws/Line.lean ====
section
/-! SUPPORT. A program line and its word: what the line check and the decoding of a line can answer. -/

namespace Sys2Proof

/-- The value of a binary string fits in as many bits as it has characters, and its character `p` is bit
`length - 1 - p`. -/
theorem binaryValue_bits (s : List Char) (h : ∀ c ∈ s, c = '0' ∨ c = '1') :
    binaryValue s < 2 ^ s.length ∧
      ∀ p, (hp : p < s.length) → ((binaryValue s).testBit (s.length - 1 - p) = true ↔ s[p] = '1') := by
  unfold binaryValue
  induction s using List.reverseRecOn with
  | nil => simp
  | append_singleton l c ih =>
    have ih := ih (fun d hd => h d (by simp [hd]))
    have hc : c = '0' ∨ c = '1' := h c (by simp)
    simp only [List.foldl_append, List.foldl_cons, List.foldl_nil, List.length_append, List.length_singleton]
    generalize List.foldl _ 0 l = v at *
    have hb : (if c = '1' then 1 else 0) < 2 := by split <;> omega
    generalize hbe : (if c = '1' then 1 else 0) = b at *
    constructor
    · rw [pow_succ]
      omega
    · intro p hp
      by_cases hpl : p < l.length
      · rw [List.getElem_append_left hpl, ← ih.2 p hpl]
        rw [show l.length + 1 - 1 - p = (l.length - 1 - p) + 1 by omega, Nat.testBit_succ]
        rw [show (2 * v + b) / 2 = v by omega]
      · obtain rfl : p = l.length := by omega
        simp only [Nat.add_sub_cancel, Nat.sub_self, Nat.testBit_zero, List.getElem_concat_length]
        rcases hc with rfl | rfl <;> simp at hbe <;> subst hbe <;> simp

/-- A line that decodes has a word, and the decoded line keeps it. -/
theorem decodeLine_ok {strict : Bool} {l : List Char} {d : Decoded} (h : decodeLine strict l = .ok d) :
    wordOfLine l = some d.raw ∧ decodeWord strict d.raw = .ok d.instr := by
  unfold decodeLine at h
  split at h
  · cases h
  · next w hw =>
    split at h
    · cases h
    · next i hi =>
      cases h
      exact ⟨hw, hi⟩

/-- A line that does not decode has no word, or a word that does not decode. -/
theorem decodeLine_error {strict : Bool} {l : List Char} {e : DecodeError} (h : decodeLine strict l = .error e) :
    (wordOfLine l = none ∧ e = .malformedEncoding) ∨ ∃ w, wordOfLine l = some w ∧ decodeWord strict w = .error e := by
  unfold decodeLine at h
  split at h
  · next hw =>
    cases h
    exact .inl ⟨hw, rfl⟩
  · next w hw =>
    split at h
    · next e' he =>
      cases h
      exact .inr ⟨w, hw, he⟩
    · cases h

/-- The ports that a word drives whatever its opcode. -/
@[simp] theorem fieldPorts_raw (w : Word) : (fieldPorts w).raw = some w := by
  unfold fieldPorts
  cases formatOf (opcodeOf w) <;> rfl
@[simp] theorem fieldPorts_opcode (w : Word) : (fieldPorts w).opcode = some (opcodeOf w) := by
  unfold fieldPorts
  cases formatOf (opcodeOf w) <;> rfl
@[simp] theorem fieldPorts_fmt (w : Word) : (fieldPorts w).fmt = formatOf (opcodeOf w) := by
  unfold fieldPorts
  cases formatOf (opcodeOf w) <;> rfl

/-- Everything the decoder unit can output. -/
theorem decoderPorts_cases (strict : Bool) (line : List Char) :
    (wordOfLine line = none ∧
      decoderPorts strict line = { DecoderPorts.undriven with err := some .malformedEncoding }) ∨
    (∃ w e, wordOfLine line = some w ∧ decodeWord strict w = .error e ∧
      decoderPorts strict line = { fieldPorts w with err := some e }) ∨
    (∃ w i, wordOfLine line = some w ∧ decodeWord strict w = .ok i ∧
      decoderPorts strict line = { fieldPorts w with valid := true, mnemonic := some i.mnemonic }) := by
  unfold decoderPorts
  cases hw : wordOfLine line with
  | none => exact .inl ⟨rfl, rfl⟩
  | some w =>
    cases hd : decodeWord strict w with
    | error e => exact .inr (.inl ⟨w, e, rfl, hd, by simp [hd]⟩)
    | ok i => exact .inr (.inr ⟨w, i, rfl, hd, by simp [hd]⟩)

end Sys2Proof
end

