-- ==== Sys2Proof/Laws/Load.lean ====
section
/-! SUPPORT. The program load: splitting, decoding of the lines, and the placing of one entry. -/

namespace Sys2Proof.Machine

/-- Every text has a first line. -/
theorem splitLines_ne_nil (text : List Char) : splitLines text ≠ [] := by
  cases text with
  | nil => simp [splitLines]
  | cons c cs =>
    unfold splitLines
    split
    · simp
    · split <;> simp

/-- A line feed starts a new line. -/
@[simp] theorem splitLines_lf (cs : List Char) : splitLines ('\n' :: cs) = [] :: splitLines cs := by
  simp [splitLines]

/-- Any other character goes to the front of the first line. -/
theorem splitLines_char {c : Char} (h : c ≠ '\n') (cs : List Char) :
    ∃ l ls, splitLines cs = l :: ls ∧ splitLines (c :: cs) = (c :: l) :: ls := by
  cases hs : splitLines cs with
  | nil => exact absurd hs (splitLines_ne_nil cs)
  | cons l ls => exact ⟨l, ls, rfl, by simp [splitLines, h, hs]⟩

/-- Everything the decoding of the lines can answer, the first line being numbered `k`. -/
theorem decodeLines_cases (strict : Bool) (lines : List (List Char)) (k : Nat) :
    (∃ p, decodeLines strict k lines = .ok p ∧
      List.Forall₂ (fun l d => decodeLine strict l = .ok d) lines p) ∨
    (∃ good bad rest e, lines = good ++ bad :: rest ∧ (∀ l ∈ good, ∃ d, decodeLine strict l = .ok d) ∧
      decodeLine strict bad = .error e ∧
      decodeLines strict k lines = .error { error := e, line := k + good.length, text := bad }) := by
  induction lines generalizing k with
  | nil => exact .inl ⟨[], rfl, .nil⟩
  | cons l ls ih =>
    unfold decodeLines
    cases hl : decodeLine strict l with
    | error e => exact .inr ⟨[], l, ls, e, rfl, by simp, hl, by simp⟩
    | ok d =>
      rcases ih (k + 1) with ⟨p, h1, h2⟩ | ⟨good, bad, rest, e, h1, h2, h3, h4⟩
      · exact .inl ⟨d :: p, by simp [h1], .cons hl h2⟩
      · refine .inr ⟨l :: good, bad, rest, e, by simp [h1], ?_, h3, ?_⟩
        · intro m hm
          rcases List.mem_cons.1 hm with rfl | hm
          · exact ⟨d, hl⟩
          · exact h2 m hm
        · simp only [h4, List.length_cons, Except.error.injEq, LoadError.mk.injEq, true_and, and_true]
          omega

/-- The placed entry is where it was placed. -/
theorem placeEntry_get (p : List Decoded) (k : Nat) (d : Decoded) : (placeEntry p k d)[k]? = some d := by
  unfold placeEntry
  rw [List.getElem?_append_left, List.getElem?_append_right] <;> simp
  · rw [show k - (min k p.length + (k - p.length)) = 0 by omega]
    simp
  · omega
  · omega

end Sys2Proof.Machine
end

