-- ==== Sys2Proof/Laws/Masks.lean ====
section
/-! SUPPORT. The masks of spec/opcode_table.json against the fields of a word: a masked word is a row's pattern exactly
when the row's fixed fields have the row's values. -/

namespace Sys2Proof

/-- A masked word, bit by bit. -/
theorem and_eq_iff_bits (w mask pattern : Word) :
    w &&& mask = pattern ↔ ∀ i : Fin 32, (w.getLsbD i && mask.getLsbD i) = pattern.getLsbD i := by
  constructor
  · rintro rfl i
    simp
  · intro h
    ext i hi
    simpa [BitVec.getLsbD_eq_getElem, hi] using h ⟨i, hi⟩

/-- A field of a word, bit by bit. -/
theorem extract_eq_iff_bits {n k : Nat} (w : Word) (v : BitVec n) :
    w.extractLsb' k n = v ↔ ∀ i : Fin n, w.getLsbD (k + i) = v.getLsbD i := by
  constructor
  · rintro rfl i
    simp [i.2]
  · intro h
    ext i hi
    simpa [BitVec.getLsbD_eq_getElem, hi] using h ⟨i, hi⟩

theorem mask_add (w : Word) :
    w &&& 0xFE00707F#32 = 0x00000033#32 ↔ opcodeOf w = 0b0110011#7 ∧ funct3Of w = 0b000#3 ∧ funct7Of w = 0b0000000#7 := by
  simp only [and_eq_iff_bits, opcodeOf, funct3Of, funct7Of, extract_eq_iff_bits, Fin.forall_fin_succ]
  simp
  tauto

theorem mask_sub (w : Word) :
    w &&& 0xFE00707F#32 = 0x40000033#32 ↔ opcodeOf w = 0b0110011#7 ∧ funct3Of w = 0b000#3 ∧ funct7Of w = 0b0100000#7 := by
  simp only [and_eq_iff_bits, opcodeOf, funct3Of, funct7Of, extract_eq_iff_bits, Fin.forall_fin_succ]
  simp
  tauto

theorem mask_and (w : Word) :
    w &&& 0xFE00707F#32 = 0x00007033#32 ↔ opcodeOf w = 0b0110011#7 ∧ funct3Of w = 0b111#3 ∧ funct7Of w = 0b0000000#7 := by
  simp only [and_eq_iff_bits, opcodeOf, funct3Of, funct7Of, extract_eq_iff_bits, Fin.forall_fin_succ]
  simp
  tauto

theorem mask_or (w : Word) :
    w &&& 0xFE00707F#32 = 0x00006033#32 ↔ opcodeOf w = 0b0110011#7 ∧ funct3Of w = 0b110#3 ∧ funct7Of w = 0b0000000#7 := by
  simp only [and_eq_iff_bits, opcodeOf, funct3Of, funct7Of, extract_eq_iff_bits, Fin.forall_fin_succ]
  simp
  tauto

theorem mask_addi (w : Word) :
    w &&& 0x0000007F#32 = 0x00000013#32 ↔ opcodeOf w = 0b0010011#7 := by
  simp only [and_eq_iff_bits, opcodeOf, extract_eq_iff_bits, Fin.forall_fin_succ]
  simp

theorem mask_lw (w : Word) :
    w &&& 0x0000007F#32 = 0x00000003#32 ↔ opcodeOf w = 0b0000011#7 := by
  simp only [and_eq_iff_bits, opcodeOf, extract_eq_iff_bits, Fin.forall_fin_succ]
  simp

theorem mask_sw (w : Word) :
    w &&& 0x0000007F#32 = 0x00000023#32 ↔ opcodeOf w = 0b0100011#7 := by
  simp only [and_eq_iff_bits, opcodeOf, extract_eq_iff_bits, Fin.forall_fin_succ]
  simp

theorem mask_addi_strict (w : Word) :
    w &&& 0x0000707F#32 = 0x00000013#32 ↔ opcodeOf w = 0b0010011#7 ∧ funct3Of w = 0b000#3 := by
  simp only [and_eq_iff_bits, opcodeOf, funct3Of, extract_eq_iff_bits, Fin.forall_fin_succ]
  simp
  tauto

theorem mask_lw_strict (w : Word) :
    w &&& 0x0000707F#32 = 0x00002003#32 ↔ opcodeOf w = 0b0000011#7 ∧ funct3Of w = 0b010#3 := by
  simp only [and_eq_iff_bits, opcodeOf, funct3Of, extract_eq_iff_bits, Fin.forall_fin_succ]
  simp
  tauto

theorem mask_sw_strict (w : Word) :
    w &&& 0x0000707F#32 = 0x00002023#32 ↔ opcodeOf w = 0b0100011#7 ∧ funct3Of w = 0b010#3 := by
  simp only [and_eq_iff_bits, opcodeOf, funct3Of, extract_eq_iff_bits, Fin.forall_fin_succ]
  simp
  tauto

theorem mask_beq (w : Word) :
    w &&& 0x0000707F#32 = 0x00000063#32 ↔ opcodeOf w = 0b1100011#7 ∧ funct3Of w = 0b000#3 := by
  simp only [and_eq_iff_bits, opcodeOf, funct3Of, extract_eq_iff_bits, Fin.forall_fin_succ]
  simp
  tauto

theorem mask_bne (w : Word) :
    w &&& 0x0000707F#32 = 0x00001063#32 ↔ opcodeOf w = 0b1100011#7 ∧ funct3Of w = 0b001#3 := by
  simp only [and_eq_iff_bits, opcodeOf, funct3Of, extract_eq_iff_bits, Fin.forall_fin_succ]
  simp
  tauto

end Sys2Proof
end

