-- ==== Sys2Proof/Laws/PerInstr.lean ====
section
/-! SUPPORT. Facts about each instruction as syntax, one lemma per constructor. -/

namespace Sys2Proof.Laws

/-- The word of an instruction holds the instruction's opcode and `funct3`, and its opcode selects its format
(spec/30_encoding.md R47 to R51). -/
def EncodeFields.Statement (i : Instr) : Prop :=
  opcodeOf (encode i) = i.opcode ∧ funct3Of (encode i) = i.funct3 ∧ rs1Of (encode i) = i.rs1 ∧
    formatOf (opcodeOf (encode i)) = some i.format

theorem EncodeFields.add (rd rs1 rs2 : RegIdx) : EncodeFields.Statement (.add rd rs1 rs2) := by
  simp [EncodeFields.Statement, encode, Instr.opcode, Instr.funct3, Instr.rs1, Instr.format, formatOf]

theorem EncodeFields.sub (rd rs1 rs2 : RegIdx) : EncodeFields.Statement (.sub rd rs1 rs2) := by
  simp [EncodeFields.Statement, encode, Instr.opcode, Instr.funct3, Instr.rs1, Instr.format, formatOf]

theorem EncodeFields.and (rd rs1 rs2 : RegIdx) : EncodeFields.Statement (.and rd rs1 rs2) := by
  simp [EncodeFields.Statement, encode, Instr.opcode, Instr.funct3, Instr.rs1, Instr.format, formatOf]

theorem EncodeFields.or (rd rs1 rs2 : RegIdx) : EncodeFields.Statement (.or rd rs1 rs2) := by
  simp [EncodeFields.Statement, encode, Instr.opcode, Instr.funct3, Instr.rs1, Instr.format, formatOf]

theorem EncodeFields.addi (rd rs1 : RegIdx) (imm : BitVec 12) (funct3 : BitVec 3) :
    EncodeFields.Statement (.addi rd rs1 imm funct3) := by
  simp [EncodeFields.Statement, encode, Instr.opcode, Instr.funct3, Instr.rs1, Instr.format, formatOf]

theorem EncodeFields.lw (rd rs1 : RegIdx) (imm : BitVec 12) (funct3 : BitVec 3) :
    EncodeFields.Statement (.lw rd rs1 imm funct3) := by
  simp [EncodeFields.Statement, encode, Instr.opcode, Instr.funct3, Instr.rs1, Instr.format, formatOf]

theorem EncodeFields.sw (rs1 rs2 : RegIdx) (immHi : BitVec 7) (immLo : BitVec 5) (funct3 : BitVec 3) :
    EncodeFields.Statement (.sw rs1 rs2 immHi immLo funct3) := by
  simp [EncodeFields.Statement, encode, Instr.opcode, Instr.funct3, Instr.rs1, Instr.format, formatOf]

theorem EncodeFields.beq (rs1 rs2 : RegIdx) (immHi : BitVec 7) (immLo : BitVec 5) :
    EncodeFields.Statement (.beq rs1 rs2 immHi immLo) := by
  simp [EncodeFields.Statement, encode, Instr.opcode, Instr.funct3, Instr.rs1, Instr.format, formatOf]

theorem EncodeFields.bne (rs1 rs2 : RegIdx) (immHi : BitVec 7) (immLo : BitVec 5) :
    EncodeFields.Statement (.bne rs1 rs2 immHi immLo) := by
  simp [EncodeFields.Statement, encode, Instr.opcode, Instr.funct3, Instr.rs1, Instr.format, formatOf]

end Sys2Proof.Laws
end

