-- ==== Sys2Proof/Laws/Step.lean ====
section
/-! SUPPORT. What an instruction and a step can do, said once: the inversion lemmas that invariants are proved from. -/

namespace Sys2Proof.Machine

/-- Everything a committed effect of instruction `i` from state `s` can be: it writes exactly the instruction's `rd`, it
stores only for `sw` and inside the memory, and the pc goes to pc + 4 or, for a branch, to the branch target. -/
structure EffectOf (i : Instr) (s : State) (e : Effect) : Prop where
  reg : e.regWrite.map Prod.fst = i.rd
  mem : (e.memWrite = none ∧ i.mnemonic ≠ .sw) ∨ ∃ a v, a < 256 ∧ e.memWrite = some (a, v) ∧ i.mnemonic = .sw
  pc : e.nextPc = pcPlus4 s.pc ∨ ∃ hi lo, i.format = .b ∧ e.nextPc = branchTarget s.pc hi lo

/-- Everything the execution of an instruction can answer: it commits one effect, or it is a load or store that raises
`OutOfBounds`. -/
theorem exec_cases (i : Instr) (s : State) :
    (∃ e, EffectOf i s e ∧ exec i s = .next (s.commit e)) ∨
    (∃ a : Int, (a < 0 ∨ 255 < a) ∧ (i.mnemonic = .lw ∨ i.mnemonic = .sw) ∧
      exec i s = .next (s.raise (.outOfBounds .memory a s.pc))) := by
  cases i with
  | add => exact .inl ⟨_, ⟨rfl, .inl ⟨rfl, by simp [Instr.mnemonic]⟩, .inl rfl⟩, rfl⟩
  | sub => exact .inl ⟨_, ⟨rfl, .inl ⟨rfl, by simp [Instr.mnemonic]⟩, .inl rfl⟩, rfl⟩
  | and => exact .inl ⟨_, ⟨rfl, .inl ⟨rfl, by simp [Instr.mnemonic]⟩, .inl rfl⟩, rfl⟩
  | or => exact .inl ⟨_, ⟨rfl, .inl ⟨rfl, by simp [Instr.mnemonic]⟩, .inl rfl⟩, rfl⟩
  | addi => exact .inl ⟨_, ⟨rfl, .inl ⟨rfl, by simp [Instr.mnemonic]⟩, .inl rfl⟩, rfl⟩
  | lw rd rs1 imm f3 =>
    rcases checkIndex_cases (effIndex (s.reg rs1) (unsignedImmediate imm)) s.pc with ⟨-, -, h⟩ | ⟨ho, h⟩
    · exact .inl ⟨_, ⟨rfl, .inl ⟨rfl, by simp [Instr.mnemonic]⟩, .inl rfl⟩, by simp only [exec, execLw, State.loadIndex, h]; rfl⟩
    · exact .inr ⟨_, ho, .inl rfl, by simp only [exec, execLw, State.loadIndex, h]; rfl⟩
  | sw rs1 rs2 hi lo f3 =>
    rcases checkIndex_cases (effIndex (s.reg rs1) (unsignedImmediate lo)) s.pc with ⟨h0, h1, h⟩ | ⟨ho, h⟩
    · exact .inl ⟨_, ⟨rfl, .inr ⟨(effIndex (s.reg rs1) (unsignedImmediate lo)).toNat, s.reg rs2, by omega, rfl, rfl⟩, .inl rfl⟩,
        by simp only [exec, execSw, State.storeIndex, h]; rfl⟩
    · exact .inr ⟨_, ho, .inr rfl, by simp only [exec, execSw, State.storeIndex, h]; rfl⟩
  | beq rs1 rs2 hi lo =>
    refine .inl ⟨_, ⟨rfl, .inl ⟨rfl, by simp [Instr.mnemonic]⟩, ?_⟩, rfl⟩
    by_cases h : s.reg rs1 = s.reg rs2
    · exact .inr ⟨hi, lo, rfl, by simp [pcEffect, h]⟩
    · exact .inl (by simp [pcEffect, h])
  | bne rs1 rs2 hi lo =>
    refine .inl ⟨_, ⟨rfl, .inl ⟨rfl, by simp [Instr.mnemonic]⟩, ?_⟩, rfl⟩
    by_cases h : s.reg rs1 = s.reg rs2
    · exact .inl (by simp [pcEffect, h])
    · exact .inr ⟨hi, lo, rfl, by simp [pcEffect, h]⟩

/-- A step from `Running` is what the fetch found. -/
theorem step_running {s : State} (h : s.status = .running) : step s = afterFetch (fetch s.program s.pc) s := by
  simp [step, cycle, h]

/-- Only a `Running` machine has a next state. -/
theorem running_of_step {s t : State} (h : step s = .next t) : s.status = .running := by
  simp only [step, cycle] at h
  split at h <;> simp_all

end Sys2Proof.Machine
end

