-- ==== Sys2Proof/Tests/Slice0.lean ====
section
/-! SUPPORT. The model's own tests. Every expected value is taken from spec/95_test_vectors.md (its number stands beside
the test) or worked out by hand from the rule named; none of them is the model's own answer. After them, for each
statement with hypotheses, a concrete case that meets all of them. -/

namespace Sys2Proof.Tests

open Sys2Proof Sys2Proof.Machine

/-! ### Helpers -/

/-- The next state of an outcome. -/
def nextOf (o : Host.Outcome State Fault Refusal) : Option State :=
  match o with
  | .next s => some s
  | .fault _ => none
  | .refused _ => none

/-- The fault of an outcome. -/
def faultOf (o : Host.Outcome State Fault Refusal) : Option Fault :=
  match o with
  | .next _ => none
  | .fault f => some f
  | .refused _ => none

/-- The instruction a word decodes to. -/
def decoded (strict : Bool) (w : Word) : Option Instr :=
  match decodeWord strict w with
  | .ok i => some i
  | .error _ => none

/-- The error of a word. -/
def failed (strict : Bool) (w : Word) : Option DecodeError :=
  match decodeWord strict w with
  | .ok _ => none
  | .error e => some e

/-- The state after loading a text. -/
def loaded (text : List Char) : Option State := nextOf (loadText false text)

/-- `addi x0, x0, 0`, as filler for programs of a given length. -/
def filler : Decoded := { instr := .addi 0#5 0#5 0#12 0#3, raw := 0x00000013#32 }

/-- Reset with `x1`, `x2` and the pc set, and a program of `n` fillers. -/
def start (x1 x2 : Word) (pc : Word := 0#32) (n : Nat := 1) : State :=
  { ((State.reset.setReg 1#5 x1).setReg 2#5 x2).setPc pc with program := List.replicate n filler }

/-- `start` with one decoded instruction as the program. -/
def startWith (d : Decoded) (x1 x2 : Word) : State := { start x1 x2 with program := [d] }

/-! ### Well-formedness: each check refuses an ill-formed term (30_encoding.md R57) -/

theorem test_wf_strict_addi : (Instr.addi 1#5 0#5 5#12 4#3).wf true = false := by decide
theorem test_wf_strict_lw : (Instr.lw 3#5 2#5 0#12 0#3).wf true = false := by decide
theorem test_wf_strict_sw : (Instr.sw 2#5 1#5 0#7 0#5 0#3).wf true = false := by decide
theorem test_wf_default : (Instr.addi 1#5 0#5 5#12 4#3).wf false = true ∧ (Instr.lw 3#5 2#5 0#12 0#3).wf false = true ∧
    (Instr.sw 2#5 1#5 0#7 0#5 0#3).wf false = true := by decide

/-! ### Decoding: words written out from the encodings of spec/opcode_table.json and 30_encoding.md R48 to R57 -/

/-- 95_test_vectors.md E1. -/
theorem test_decode_add : decoded true 0b0000000_00010_00001_000_00011_0110011#32 = some (.add 3#5 1#5 2#5) := by decide
/-- 2.1, field extraction of `0x402081B3`. -/
theorem test_decode_sub : decoded true 0b0100000_00010_00001_000_00011_0110011#32 = some (.sub 3#5 1#5 2#5) := by decide
theorem test_decode_and : decoded true 0b0000000_11111_00001_111_00011_0110011#32 = some (.and 3#5 1#5 31#5) := by decide
theorem test_decode_or : decoded true 0b0000000_00010_10000_110_00011_0110011#32 = some (.or 3#5 16#5 2#5) := by decide
/-- V-D20, V-D17. -/
theorem test_decode_addi : decoded true 0b000000000101_00000_000_00001_0010011#32 = some (.addi 1#5 0#5 5#12 0#3) ∧
    decoded false 0b000000000101_00000_100_00001_0010011#32 = some (.addi 1#5 0#5 5#12 4#3) := by decide
/-- V-D21, V-D18. -/
theorem test_decode_lw : decoded true 0b000000000000_00010_010_00011_0000011#32 = some (.lw 3#5 2#5 0#12 2#3) ∧
    decoded false 0b000000000000_00010_000_00011_0000011#32 = some (.lw 3#5 2#5 0#12 0#3) := by decide
/-- 2.1, field extraction of `0x02112023`; V-D19. -/
theorem test_decode_sw : decoded true 0b0000001_00001_00010_010_00000_0100011#32 = some (.sw 2#5 1#5 1#7 0#5 2#3) ∧
    decoded false 0b0000000_00001_00010_000_00000_0100011#32 = some (.sw 2#5 1#5 0#7 0#5 0#3) := by decide
/-- V-BI4. -/
theorem test_decode_beq : decoded true 0b1000000_00010_00001_000_00000_1100011#32 =
    some (.beq 1#5 2#5 0b1000000#7 0#5) := by decide
/-- 2.1, field extraction of `0xFE209CE3`. -/
theorem test_decode_bne : decoded true 0b1111111_00010_00001_001_11001_1100011#32 =
    some (.bne 1#5 2#5 0b1111111#7 0b11001#5) := by decide
/-- V-D6 to V-D9 and E7. -/
theorem test_decode_bad_opcode : failed false 0#32 = some (.unsupportedOpcode 0#7) ∧
    failed false 0xFFFFFFFF#32 = some (.unsupportedOpcode 0b1111111#7) ∧
    failed true 0x00000073#32 = some (.unsupportedOpcode 0b1110011#7) ∧
    failed false 0x0000000F#32 = some (.unsupportedOpcode 0b0001111#7) ∧
    failed false 0x000000B7#32 = some (.unsupportedOpcode 0b0110111#7) := by decide
/-- V-D10 to V-D14. -/
theorem test_decode_bad_funct_r :
    failed false 0b0000001_00010_00001_000_00011_0110011#32 = some (.unsupportedFunct 0b0110011#7 0#3 (some 1#7)) ∧
    failed false 0b0000000_00010_00001_001_00011_0110011#32 = some (.unsupportedFunct 0b0110011#7 1#3 (some 0#7)) ∧
    failed false 0b0100000_00010_00001_111_00011_0110011#32 = some (.unsupportedFunct 0b0110011#7 7#3 (some 0b0100000#7)) ∧
    failed false 0b0100000_00010_00001_110_00011_0110011#32 = some (.unsupportedFunct 0b0110011#7 6#3 (some 0b0100000#7)) ∧
    failed false 0b1000000_00010_00001_000_00011_0110011#32 = some (.unsupportedFunct 0b0110011#7 0#3 (some 0b1000000#7)) := by
  decide
/-- V-D15, V-D16, and V-D17 to V-D19 when strict. -/
theorem test_decode_bad_funct_other :
    failed false 0x0020A063#32 = some (.unsupportedFunct 0b1100011#7 2#3 none) ∧
    failed false 0x0020F063#32 = some (.unsupportedFunct 0b1100011#7 7#3 none) ∧
    failed true 0x00504093#32 = some (.unsupportedFunct 0b0010011#7 4#3 none) ∧
    failed true 0x00010183#32 = some (.unsupportedFunct 0b0000011#7 0#3 none) ∧
    failed true 0x00110023#32 = some (.unsupportedFunct 0b0100011#7 0#3 none) := by decide
/-- E1, V-D2 (a carriage return), V-D4, V-D23, V-D24. -/
theorem test_line_check :
    wordOfLine "00000000001000001000000110110011".toList = some 0x002081B3#32 ∧
    wordOfLine "00000000001000001000000110110011\r".toList = none ∧
    wordOfLine "00000000001000001000000110110012".toList = none ∧
    wordOfLine "0000000000000000000000001011011x".toList = none ∧ wordOfLine "0000000000100000".toList = none := by decide
/-- Encoding gives the words of 95_test_vectors.md back. -/
theorem test_encode : encode (.add 3#5 1#5 2#5) = 0x002081B3#32 ∧ encode (.sub 3#5 1#5 2#5) = 0x402081B3#32 ∧
    encode (.and 3#5 1#5 2#5) = 0x0020F1B3#32 ∧ encode (.or 3#5 1#5 2#5) = 0x0020E1B3#32 ∧
    encode (.addi 1#5 0#5 5#12 0#3) = 0x00500093#32 ∧ encode (.lw 3#5 2#5 0#12 2#3) = 0x00012183#32 ∧
    encode (.sw 2#5 1#5 1#7 0#5 2#3) = 0x02112023#32 ∧ encode (.beq 0#5 0#5 0#7 8#5) = 0x00000463#32 ∧
    encode (.bne 1#5 2#5 0b1111111#7 0b11001#5) = 0xFE209CE3#32 := by decide

/-! ### Immediates and printed forms -/

/-- 2.3, `addi`. -/
theorem test_simple_immediate : [0x000#12, 0x001#12, 0x005#12, 0x7FF#12, 0x800#12, 0x801#12, 0xFFE#12, 0xFFF#12].map
    simpleImmediate = [0, 1, 5, 2047, -2048, -2047, -2, -1] := by decide
/-- V-BI1 to V-BI12. -/
theorem test_branch_immediate :
    [(0b0000000#7, 0b01000#5), (0#7, 0#5), (0b1111111#7, 0b11001#5), (0b1000000#7, 0#5), (0b0111111#7, 0b11111#5),
      (0#7, 0b00001#5), (0#7, 0b00110#5), (0b1111111#7, 0b11111#5), (0b1111111#7, 0b11101#5), (0#7, 0b00100#5),
      (0b1000000#7, 0b00001#5)].map (fun p => branchImmediate p.1 p.2) =
    [8, 0, -8, -4096, 4094, 2048, 6, -2, -4, 4, -2048] := by decide
/-- 30_encoding.md R60 on V-D10 and V-D8: a word that does not decode still drives `raw`, the opcode, and the fields of its
format where it has one. -/
theorem test_decoder_ports_of_errors :
    (let p := decoderPorts false "00000010001000001000000110110011".toList
     (p.valid, p.raw, p.fmt, p.funct7, p.rd, p.imm) = (false, some 0x022081B3#32, some .r, some 1#7, some 3#5, none)) ∧
    (let p := decoderPorts false "00000000000000000000000001110011".toList
     (p.valid, p.raw, p.opcode, p.fmt, p.rd) = (false, some 0x00000073#32, some 0b1110011#7, none, none)) :=
  ⟨rfl, rfl⟩
/-- 40_control_datapath.md R88 on V-B1, and the formats that drive no `imm_hi` (log 11). -/
theorem test_branch_target_adder : btarget 0#32 (.beq 0#5 0#5 0#7 8#5) = some 8#32 ∧
    btarget 0#32 (.addi 1#5 0#5 5#12 0#3) = none := by decide
/-- 2.4. -/
theorem test_control_vectors : (controlOfWord false 0x002081B3#32).map (·.lines) =
      some [true, true, false, false, false, false, false, true, false] ∧
    (controlOfWord false 0x00504093#32).map (·.lines) = some [false, true, false, false, false, false, true, false, false] ∧
    (controlOfWord false 0x02110023#32).map (·.lines) = some [false, false, false, false, false, true, true, false, false] ∧
    controlOfWord false 0x022081B3#32 = none := by decide
/-- E8. -/
theorem test_control_display : controlDisplay (controlVector (.lw 3#5 2#5 0#12 2#3)) =
    ["RegDst: 0", "RegWrite: 1", "Branch: 0", "MemToReg: 1", "MemRead: 1", "MemWrite: 0", "ALUSource: 1", "ALUOp1: 0",
      "ALUOp0: 0"].map String.toList := by decide
/-- 2.9 and 30_encoding.md R71. -/
theorem test_disassemble :
    disassemble (.add 3#5 1#5 2#5) = "add x3, x1, x2".toList ∧
    disassemble (.addi 1#5 1#5 0x800#12 0#3) = "addi x1, x1, -2048".toList ∧
    disassemble (.lw 3#5 0#5 0xFFC#12 2#3) = "lw x3, 4092(x0)".toList ∧
    disassemble (.sw 2#5 1#5 1#7 31#5 2#3) = "sw x1, 31(x2)".toList ∧
    disassemble (.bne 1#5 2#5 0b1111111#7 0b11001#5) = "bne x1, x2, -8".toList := by decide

/-! ### One step of each instruction -/

/-- V-A2, V-A20: the sum wraps; a source that is also the destination is read first. -/
theorem test_add : (nextOf (exec (.add 3#5 1#5 2#5) (start 0x7FFFFFFF#32 1#32))).map (fun t => (t.reg 3#5, t.pc)) =
      some (0x80000000#32, 4#32) ∧
    (nextOf (exec (.add 1#5 1#5 1#5) (start 6#32 0#32))).map (fun t => t.reg 1#5) = some 12#32 := by decide
/-- V-A6, V-A8. -/
theorem test_sub : (nextOf (exec (.sub 3#5 1#5 2#5) (start 3#32 5#32))).map (fun t => (t.reg 3#5, t.pc)) =
      some (0xFFFFFFFE#32, 4#32) ∧
    (nextOf (exec (.sub 3#5 1#5 2#5) (start 0x80000000#32 1#32))).map (fun t => t.reg 3#5) = some 0x7FFFFFFF#32 := by decide
/-- V-A9. -/
theorem test_and : (nextOf (exec (.and 3#5 1#5 2#5) (start 0xF0F0F0F0#32 0xFF00FF00#32))).map (fun t => (t.reg 3#5, t.pc)) =
    some (0xF000F000#32, 4#32) := by decide
/-- V-A11. -/
theorem test_or : (nextOf (exec (.or 3#5 1#5 2#5) (start 0xF0F0F0F0#32 0x0F0F0F0F#32))).map (fun t => (t.reg 3#5, t.pc)) =
    some (0xFFFFFFFF#32, 4#32) := by decide
/-- V-A16, V-A15. -/
theorem test_addi : (nextOf (exec (.addi 1#5 1#5 0x7FF#12 0#3) (start 0x7FFFFFFF#32 0#32))).map (fun t => (t.reg 1#5, t.pc)) =
      some (0x800007FE#32, 4#32) ∧
    (nextOf (exec (.addi 1#5 1#5 0x800#12 0#3) (start 0#32 0#32))).map (fun t => t.reg 1#5) = some 0xFFFFF800#32 := by decide
/-- V-A19: `x0` is writable. -/
theorem test_addi_x0 : (nextOf (exec (.addi 0#5 0#5 7#12 0#3) State.reset)).map (fun t => t.reg 0#5) = some 7#32 := by decide
/-- V-LS2, V-LS5: the base is a word index and may be negative. -/
theorem test_lw :
    (nextOf (exec (.lw 3#5 2#5 0#12 2#3) { start 0#32 4#32 with mem := [(1, 0x11#32), (4, 0x44#32)] })).map
      (fun t => (t.reg 3#5, t.pc)) = some (0x44#32, 4#32) ∧
    (nextOf (exec (.lw 3#5 2#5 4#12 2#3) { start 0#32 0xFFFFFFFF#32 with mem := [(0, 0x99#32)] })).map
      (fun t => t.reg 3#5) = some 0x99#32 := by decide
/-- V-LS12, V-LS9: the index does not wrap and the offset is unsigned. -/
theorem test_lw_out_of_bounds :
    nextOf (exec (.lw 3#5 2#5 4#12 2#3) (start 0#32 0x7FFFFFFF#32)) =
      some { start 0#32 0x7FFFFFFF#32 with status := .faulted (.outOfBounds .memory 2147483648 0#32) } ∧
    (nextOf (exec (.lw 3#5 0#5 0xFFC#12 2#3) State.reset)).map (·.status) =
      some (.faulted (.outOfBounds .memory 1023 0#32)) := by decide
/-- V-LS17, V-LS16. -/
theorem test_sw : (nextOf (exec (.sw 2#5 1#5 0#7 31#5 2#3) (start 7#32 10#32))).map (fun t => (t.mem, t.pc)) =
      some ([(17, 7#32)], 4#32) ∧
    (nextOf (exec (.sw 2#5 1#5 1#7 0#5 2#3) (start 7#32 0#32))).map (·.mem) = some [(0, 7#32)] := by decide
/-- V-LS22, V-LS20. -/
theorem test_sw_out_of_bounds :
    nextOf (exec (.sw 2#5 1#5 0#7 31#5 2#3) (start 7#32 249#32)) =
      some { start 7#32 249#32 with status := .faulted (.outOfBounds .memory 256 0#32) } ∧
    (nextOf (exec (.sw 2#5 1#5 0#7 0#5 2#3) (start 7#32 0x80000000#32))).map (·.status) =
      some (.faulted (.outOfBounds .memory (-2147483648) 0#32)) := by decide
/-- V-B6, V-B3. -/
theorem test_beq : (nextOf (exec (.beq 1#5 2#5 0b1111111#7 0b11001#5) (start 0xFFFFFFFF#32 0xFFFFFFFF#32 12#32 4))).map (·.pc) =
      some 4#32 ∧
    (nextOf (exec (.beq 1#5 2#5 0#7 8#5) (start 1#32 2#32))).map (·.pc) = some 4#32 := by decide
/-- V-B13: the pc wraps below 0. -/
theorem test_beq_wraps : (nextOf (exec (.beq 0#5 0#5 0b1000000#7 0#5) State.reset)).map (·.pc) = some 0xFFFFF000#32 := by decide
/-- V-B16, V-B2. -/
theorem test_bne : (nextOf (exec (.bne 1#5 2#5 0b1111111#7 0b11101#5) (start 0x80000000#32 0#32 4#32 2))).map (·.pc) =
      some 0#32 ∧
    (nextOf (exec (.bne 0#5 0#5 0#7 8#5) State.reset)).map (·.pc) = some 4#32 := by decide

/-! ### Step, fetch, load -/

/-- V-F1, V-F4, V-F5, V-F6, V-F8. -/
theorem test_step_without_instruction :
    (nextOf (step State.reset)).map (·.status) = some .halted ∧
    (nextOf (step (start 0#32 0#32 12#32 3))).map (·.status) = some .halted ∧
    (nextOf (step (start 0#32 0#32 16#32 3))).map (·.status) = some (.faulted (.pcOutOfRange 16#32)) ∧
    (nextOf (step (start 0#32 0#32 2#32 3))).map (·.status) = some (.faulted (.pcMisaligned 2#32)) ∧
    (nextOf (step (start 0#32 0#32 0xFFFFFFFC#32 3))).map (·.status) = some (.faulted (.pcOutOfRange 0xFFFFFFFC#32)) := by
  decide
/-- 60_exceptions.md R114: no step from `Halted`. -/
theorem test_no_step_when_halted : faultOf (step { State.reset with status := .halted }) = some .halted := by decide
/-- The host's placing of a word after reset: V-A13. -/
theorem test_withFetchWord : (nextOf (step (State.reset.withFetchWord 32 0x00500093))).map (fun t => (t.reg 1#5, t.pc)) =
    some (5#32, 4#32) := by decide
/-- A word that does not decode is a program that does not load (log 6). -/
theorem test_withFetchWord_bad : faultOf (step (State.reset.withFetchWord 32 0)) = some .loadFailed := by decide
/-- V-L1, V-L2, V-L4. -/
theorem test_load : loaded [] = some State.reset ∧
    (loaded ("00000000010100000000000010010011\n".toList)).map (·.program) =
      some [{ instr := .addi 1#5 0#5 5#12 0#3, raw := 0x00500093#32 }] ∧
    (loaded ("00000000010100000000000010010011\n00000000000000000000000000000000".toList)).map (·.status) =
      some (.loadFailed (.unsupportedOpcode 0#7) 1 "00000000000000000000000000000000".toList) := by decide
/-- V-L5: the blank line takes no number, and the lowest failing line is reported. -/
theorem test_load_first_bad_line :
    (loaded ("00000000010100000000000010010011\n\n0000000001010000000000001001001\n00000000000000000000000000000000".toList)).map
      (fun t => (t.status, t.program)) =
      some (.loadFailed .malformedEncoding 1 "0000000001010000000000001001001".toList, []) := by decide

/-! ### A case that meets the hypotheses of each statement (one for each clause)

Each theorem is named after its statement. A statement that is not named here has no hypothesis. -/

/-- Decoding by evaluation, as the hypotheses write it. -/
theorem decode_of_eval {strict : Bool} {w : Word} {i : Instr} (h : decoded strict w = some i) :
    decodeWord strict w = .ok i := by
  unfold decoded at h
  split at h
  · next j hj => rw [hj, Option.some.inj h]
  · cases h

theorem error_of_eval {strict : Bool} {w : Word} {e : DecodeError} (h : failed strict w = some e) :
    decodeWord strict w = .error e := by
  unfold failed at h
  split at h
  · cases h
  · next e' he => rw [he, Option.some.inj h]

theorem witness_DecodeEncodeRoundTrip : (Instr.addi 1#5 0#5 5#12 0#3).wf true = true ∧
    decodeWord true (encode (.addi 1#5 0#5 5#12 0#3)) = .ok (.addi 1#5 0#5 5#12 0#3) ∧
    (Instr.addi 1#5 0#5 5#12 4#3).wf true = false := by
  exact ⟨by decide, decode_of_eval (by decide), by decide⟩

theorem witness_EncodeDecodeRoundTrip : decodeWord true 0xFE209CE3#32 = .ok (.bne 1#5 2#5 0b1111111#7 0b11001#5) ∧
    decodeWord false 0x00504093#32 = .ok (.addi 1#5 0#5 5#12 4#3) :=
  ⟨decode_of_eval (by decide), decode_of_eval (by decide)⟩

/-- Two words of one opcode, `funct3` and `funct7` that decode to different instructions of one mnemonic. -/
theorem witness_EveryWordDecodesOrGivesANamedError :
    opcodeOf 0x002081B3#32 = opcodeOf 0x001080B3#32 ∧ funct3Of 0x002081B3#32 = funct3Of 0x001080B3#32 ∧
    funct7Of 0x002081B3#32 = funct7Of 0x001080B3#32 ∧ decodeWord false 0x002081B3#32 = .ok (.add 3#5 1#5 2#5) ∧
    decodeWord false 0x001080B3#32 = .ok (.add 1#5 1#5 1#5) :=
  ⟨by decide, by decide, by decide, decode_of_eval (by decide), decode_of_eval (by decide)⟩

theorem witness_OpcodeTableRowsPartitionDecodableWords :
    (∃ i, decodeWord true 0x00112023#32 = .ok i ∧ i.mnemonic = .sw) ∧
    ∃ row ∈ opcodeTable, row.mnemonic = .sw ∧ row.holds true 0x00112023#32 = true :=
  ⟨⟨.sw 2#5 1#5 0#7 0#5 2#3, decode_of_eval (by decide), rfl⟩, by decide⟩

/-- One word of each of the five opcodes, and one of another. -/
theorem witness_OpcodeSelectsFormatByTable :
    decodeWord false 0x002081B3#32 = .ok (.add 3#5 1#5 2#5) ∧ decodeWord false 0x00012183#32 = .ok (.lw 3#5 2#5 0#12 2#3) ∧
    decodeWord false 0x00500093#32 = .ok (.addi 1#5 0#5 5#12 0#3) ∧
    decodeWord false 0x00112023#32 = .ok (.sw 2#5 1#5 0#7 0#5 2#3) ∧
    decodeWord false 0x00000463#32 = .ok (.beq 0#5 0#5 0#7 8#5) ∧
    (0x00000073#32).extractLsb' 0 7 ∉ [0b0110011#7, 0b0000011#7, 0b0010011#7, 0b0100011#7, 0b1100011#7] :=
  ⟨decode_of_eval (by decide), decode_of_eval (by decide), decode_of_eval (by decide), decode_of_eval (by decide),
    decode_of_eval (by decide), by decide⟩

/-- One word of each line of the rule's table, and one of none. -/
theorem witness_FormatRResolvesByFunctFields :
    ∀ w ∈ [0x002081B3#32, 0x402081B3#32, 0x0020F1B3#32, 0x0020E1B3#32, 0x022081B3#32], w.extractLsb' 0 7 = 0b0110011#7 := by
  simp

theorem witness_FormatBResolvesByFunct3 :
    ∀ w ∈ [0x00000463#32, 0xFE209CE3#32, 0x0020A063#32, 0x0020F063#32], w.extractLsb' 0 7 = 0b1100011#7 := by
  simp

/-- A word of each opcode of the formats I and S; a strict word; a word that only the strict decoder refuses; and one
that both refuse. -/
theorem witness_StrictFunct3OnlyNarrowsFormatsIAndS :
    (∀ w ∈ [0x00504093#32, 0x00010183#32, 0x00110023#32],
      w.extractLsb' 0 7 ∈ [0b0010011#7, 0b0000011#7, 0b0100011#7]) ∧
    decodeWord true 0x00500093#32 = .ok (.addi 1#5 0#5 5#12 0#3) ∧
    (decodeWord false 0x00504093#32 = .ok (.addi 1#5 0#5 5#12 4#3) ∧ (Instr.addi 1#5 0#5 5#12 4#3).wf true = false) ∧
    decodeWord false 0#32 = .error (.unsupportedOpcode 0#7) :=
  ⟨by simp, decode_of_eval (by decide), ⟨decode_of_eval (by decide), by decide⟩, error_of_eval (by decide)⟩

/-- A malformed line, a line that decodes and a line of a word that does not. -/
theorem witness_LineIsCheckedBeforeOpcodeAndFunct :
    ¬ ("0000000000100000".toList.length = 32 ∧ ∀ c ∈ "0000000000100000".toList, c = '0' ∨ c = '1') ∧
    (wordOfLine "00000000001000001000000110110011".toList = some 0x002081B3#32 ∧
      decodeWord false 0x002081B3#32 = .ok (.add 3#5 1#5 2#5)) ∧
    (wordOfLine "00000000000000000000000001110011".toList = some 0x00000073#32 ∧
      decodeWord false 0x00000073#32 = .error (.unsupportedOpcode 0b1110011#7)) :=
  ⟨by decide, ⟨by decide, decode_of_eval (by decide)⟩, ⟨by decide, error_of_eval (by decide)⟩⟩

theorem witness_LineCharacterIsWordBit :
    wordOfLine "00000000001000001000000110110011".toList = some 0x002081B3#32 ∧ wordOfLine "01".toList = none := by
  decide

/-- V-D1, V-D10 (`UnsupportedFunct`), V-D8 (no format) and V-D24 (no word), each meeting the clauses it falls under. -/
theorem witness_DecoderPortsDriveTheFormatsFields :
    (wordOfLine "00000000001000001000000110110011".toList = some 0x002081B3#32 ∧
      decodeWord false 0x002081B3#32 = .ok (.add 3#5 1#5 2#5)) ∧
    (wordOfLine "00000010001000001000000110110011".toList = some 0x022081B3#32 ∧
      decodeLine false "00000010001000001000000110110011".toList =
        .error (.unsupportedFunct 0b0110011#7 0#3 (some 1#7))) ∧
    (wordOfLine "00000000000000000000000001110011".toList = some 0x00000073#32 ∧
      formatOf (opcodeOf 0x00000073#32) = none) ∧
    wordOfLine "0000000000100000".toList = none :=
  ⟨⟨by decide, decode_of_eval (by decide)⟩, ⟨by decide, rfl⟩, ⟨by decide, by decide⟩, by decide⟩

theorem witness_DecimalDigitsReadBack : (4095 : Nat) ≠ 0 ∧ (-4096 : Int) < 0 ∧ (0 : Int) ≤ 0 ∧
    decimal 4095 = "4095".toList ∧ signedDecimal (-4096) = "-4096".toList ∧ signedDecimal 0 = "0".toList := by decide

/-- E2: `addi x1, x0, -1`. -/
theorem witness_SimpleImmediateIsTwosComplement : decodeWord false 0xFFF00093#32 = .ok (.addi 1#5 0#5 0xFFF#12 0#3) ∧
    (Instr.addi 1#5 0#5 0xFFF#12 0#3).mnemonic = .addi :=
  ⟨decode_of_eval (by decide), rfl⟩

/-- The two ends of the range. -/
theorem witness_BranchImmediateIsSext13 : (-4096 : Int) % 2 = 0 ∧ branchImmediate 0b1000000#7 0#5 = -4096 ∧
    (4094 : Int) % 2 = 0 ∧ branchImmediate 0b0111111#7 0b11111#5 = 4094 := by decide

theorem witness_ResolverGivesOneOperandValue : (Instr.or 3#5 1#5 2#5).format = .r := by decide

/-- V-LS15 and V-LS16: two `sw` words that differ only in `imm_hi`. -/
theorem witness_StoreIgnoresImmHi : decodeWord false 0x00112023#32 = .ok (.sw 2#5 1#5 0#7 0#5 2#3) ∧
    decodeWord false 0x02112023#32 = .ok (.sw 2#5 1#5 1#7 0#5 2#3) ∧ (Instr.sw 2#5 1#5 0#7 0#5 2#3).mnemonic = .sw ∧
    (0x00112023#32).extractLsb' 0 25 = (0x02112023#32).extractLsb' 0 25 :=
  ⟨decode_of_eval (by decide), decode_of_eval (by decide), rfl, by decide⟩

/-- 2.4: a word of each opcode has a vector, and a word that does not decode has none. -/
theorem witness_ControlVectorDependsOnOpcodeOnly :
    [0x002081B3#32, 0x00500093#32, 0x00012183#32, 0x00112023#32, 0x00000463#32].all
      (fun w => (controlOfWord false w).isSome) = true ∧ decodeWord false 0x00000037#32 = .error (.unsupportedOpcode 0b0110111#7) :=
  ⟨by decide, error_of_eval (by decide)⟩

/-- V-LS5, V-LS11, V-LS8, V-LS7: the indices 0, 255, −1 and 256, and the largest offset. -/
theorem witness_AdderIndexAgreesWithMathematicalIndex :
    effIndex 0xFFFFFFFF#32 4 = 0 ∧ effIndex 0#32 1020 = 255 ∧ effIndex 0xFFFFFFFF#32 0 = -1 ∧ effIndex 255#32 4 = 256 ∧
    effIndex 0x7FFFFFFF#32 4095 = 2147484670 := by decide

/-- The indices 0 and 255 on the one side, −1 and 256 on the other (V-LS5, V-LS6, V-LS8, V-LS7). -/
theorem witness_LwFollowsItsRule :
    (0 : Int) = ((start 0#32 0xFFFFFFFF#32).reg 2#5).toInt + ((4#12).toNat / 4 : Nat) ∧
    (255 : Int) = ((start 0#32 255#32).reg 2#5).toInt + ((0#12).toNat / 4 : Nat) ∧
    (-1 : Int) = ((start 0#32 0xFFFFFFFF#32).reg 2#5).toInt + ((0#12).toNat / 4 : Nat) ∧
    (256 : Int) = ((start 0#32 255#32).reg 2#5).toInt + ((4#12).toNat / 4 : Nat) := by decide

theorem witness_SwFollowsItsRule :
    (0 : Int) = ((start 7#32 0xFFFFFFFF#32).reg 2#5).toInt + ((4#5).toNat / 4 : Nat) ∧
    (255 : Int) = ((start 7#32 248#32).reg 2#5).toInt + ((31#5).toNat / 4 : Nat) ∧
    (-1 : Int) = ((start 7#32 0xFFFFFFFF#32).reg 2#5).toInt + ((3#5).toNat / 4 : Nat) ∧
    (256 : Int) = ((start 7#32 249#32).reg 2#5).toInt + ((31#5).toNat / 4 : Nat) := by decide

/-- Taken and not taken. -/
theorem witness_BeqFollowsItsRule : (start 5#32 5#32).reg 1#5 = (start 5#32 5#32).reg 2#5 ∧
    (start 5#32 6#32).reg 1#5 ≠ (start 5#32 6#32).reg 2#5 := by decide

theorem witness_BneFollowsItsRule : (start 0x80000000#32 0#32).reg 1#5 ≠ (start 0x80000000#32 0#32).reg 2#5 ∧
    (start 5#32 5#32).reg 1#5 = (start 5#32 5#32).reg 2#5 := by decide

/-- V-A19 changes `x0`; V-LS14 loads it. -/
theorem witness_RegisterZeroIsOrdinary :
    (∃ t, exec (.addi 0#5 0#5 7#12 0#3) State.reset = .next t ∧ t.reg 0#5 ≠ State.reset.reg 0#5) ∧
    State.reset.loadIndex 0#5 0#12 = .ok 0 :=
  ⟨⟨_, rfl, by decide⟩, rfl⟩

/-- `add x3, x1, x2` in two states that differ in `x5` only: it writes `x3`, and `x4` is not written. -/
theorem witness_InstructionsReadAndWriteTheListedRegisters :
    let s := start 5#32 3#32
    let s' := s.setReg 5#5 9#32
    4#5 ∉ registersWritten (.add 3#5 1#5 2#5) ∧ s.status = .running ∧ s'.mem = s.mem ∧ s'.pc = s.pc ∧
    s'.program = s.program ∧ s'.status = s.status ∧ (∀ q ∈ registersRead (.add 3#5 1#5 2#5), s'.reg q = s.reg q) ∧
    (∃ t, exec (.add 3#5 1#5 2#5) s = .next t ∧ t.status = .running) ∧ ∃ t', exec (.add 3#5 1#5 2#5) s' = .next t' :=
  ⟨by decide, rfl, rfl, rfl, rfl, rfl, by decide, ⟨_, rfl, rfl⟩, ⟨_, rfl⟩⟩

/-- The first and the last word, two different words, and a written memory that equals another in canonical form. -/
theorem witness_MemoryReadsTheLastWrite : Memory.wf [] = true ∧ Memory.wf [(4, 9#32)] = true ∧ 0 < 256 ∧ 255 < 256 ∧
    (1 : Nat) ≠ 0 ∧ Memory.write (Memory.write [(4, 9#32)] 255 7#32) 255 0#32 = [(4, 9#32)] := by decide

/-- The indices −1, 256, 0 and 255. -/
theorem witness_OutOfBoundsCommitsNothing :
    effIndex ((start 0#32 0xFFFFFFFF#32).reg 2#5) (0#12).toNat = -1 ∧
    effIndex ((start 0#32 255#32).reg 2#5) (4#12).toNat = 256 ∧
    effIndex ((start 0#32 0xFFFFFFFF#32).reg 2#5) (4#12).toNat = 0 ∧
    effIndex ((start 0#32 255#32).reg 2#5) (0#12).toNat = 255 ∧
    effIndex ((start 7#32 0xFFFFFFFF#32).reg 2#5) (0#5).toNat = -1 ∧
    effIndex ((start 7#32 249#32).reg 2#5) (31#5).toNat = 256 ∧
    effIndex ((start 7#32 0xFFFFFFFF#32).reg 2#5) (4#5).toNat = 0 ∧
    effIndex ((start 7#32 248#32).reg 2#5) (31#5).toNat = 255 := by decide

/-- 2.3: the offsets 0 and 3 of `lw`, and 28 and 31 of `sw`. -/
theorem witness_LowOffsetBitsAreDiscarded : (0#12).extractLsb' 2 10 = (3#12).extractLsb' 2 10 ∧
    (28#5).extractLsb' 2 3 = (31#5).extractLsb' 2 3 := by decide

/-- A load, an addition, and a store inside (index 4) and outside (index 256) the memory. -/
theorem witness_OnlyLwReadsAndOnlySwWritesMemory :
    ((Instr.lw 3#5 2#5 0#12 2#3).mnemonic ≠ .sw ∧ ∃ t, exec (.lw 3#5 2#5 0#12 2#3) (start 0#32 4#32) = .next t) ∧
    ((Instr.add 3#5 1#5 2#5).mnemonic ≠ .lw ∧ (Instr.add 3#5 1#5 2#5).mnemonic ≠ .sw ∧
      ∃ t, exec (.add 3#5 1#5 2#5) (start 0#32 4#32) = .next t) ∧
    ((start 7#32 256#32).storeIndex 2#5 0#5 = .error (.outOfBounds .memory 256 0#32) ∧
      ∃ t, exec (.sw 2#5 1#5 0#7 0#5 2#3) (start 7#32 256#32) = .next t) ∧
    ((start 7#32 4#32).storeIndex 2#5 0#5 = .ok 4 ∧ ∃ t, exec (.sw 2#5 1#5 0#7 0#5 2#3) (start 7#32 4#32) = .next t) :=
  ⟨⟨by decide, _, rfl⟩, ⟨by decide, by decide, _, rfl⟩, ⟨rfl, _, rfl⟩, ⟨rfl, _, rfl⟩⟩

/-- A store at a `Running` state, and a step. -/
theorem witness_ProgramIsNeverChanged :
    (∃ t, exec (.sw 2#5 1#5 0#7 0#5 2#3) (start 7#32 4#32) = .next t) ∧ (∃ t, step (start 7#32 4#32) = .next t) ∧
    (0x0000000F#32).extractLsb' 0 7 = 0b0001111#7 :=
  ⟨⟨_, rfl⟩, ⟨_, rfl⟩, by decide⟩

/-- V-F1, V-F5, V-F2; the instruction of E1; V-LS8. -/
theorem witness_StepRunsTheFetchedInstruction :
    let u := startWith ⟨.add 3#5 1#5 2#5, 0x002081B3#32⟩ 5#32 3#32
    let v := startWith ⟨.lw 3#5 2#5 0#12 2#3, 0x00012183#32⟩ 0#32 0xFFFFFFFF#32
    (State.reset.status = .running ∧ fetch State.reset.program State.reset.pc = .endOfProgram) ∧
    ((start 0#32 0#32 16#32 3).status = .running ∧
      fetch (start 0#32 0#32 16#32 3).program 16#32 = .fault (.pcOutOfRange 16#32)) ∧
    ((start 0#32 0#32 0#32 3).status = .running ∧ fetch (start 0#32 0#32 0#32 3).program 0#32 = .instr filler) ∧
    (u.status = .running ∧ fetch u.program u.pc = .instr ⟨.add 3#5 1#5 2#5, 0x002081B3#32⟩ ∧
      executeResult (.add 3#5 1#5 2#5) u = .ok ⟨some (3#5, 8#32), none, 4#32⟩) ∧
    (v.status = .running ∧ fetch v.program v.pc = .instr ⟨.lw 3#5 2#5 0#12 2#3, 0x00012183#32⟩ ∧
      executeResult (.lw 3#5 2#5 0#12 2#3) v = .error (.outOfBounds .memory (-1) 0#32)) :=
  ⟨⟨rfl, rfl⟩, ⟨rfl, rfl⟩, ⟨rfl, rfl⟩, ⟨rfl, rfl, rfl⟩, ⟨rfl, rfl, rfl⟩⟩

/-- V-LS6's and V-LS15's shapes at the ends of the memory, and V-LS7, V-LS18 outside it. -/
theorem witness_CommitIsAllOrNothing :
    executeResult (.lw 3#5 2#5 0#12 2#3) (start 0#32 255#32) = .ok ⟨some (3#5, 0#32), none, 4#32⟩ ∧
    executeResult (.sw 2#5 1#5 0#7 0#5 2#3) (start 7#32 0#32) = .ok ⟨none, some (0, 7#32), 4#32⟩ ∧
    executeResult (.sw 2#5 1#5 0#7 0#5 2#3) (start 7#32 255#32) = .ok ⟨none, some (255, 7#32), 4#32⟩ ∧
    executeResult (.lw 3#5 2#5 4#12 2#3) (start 0#32 255#32) = .error (.outOfBounds .memory 256 0#32) ∧
    executeResult (.sw 2#5 1#5 0#7 0#5 2#3) (start 7#32 256#32) = .error (.outOfBounds .memory 256 0#32) :=
  ⟨rfl, rfl, rfl, rfl, rfl⟩

/-- V-F6, V-F7; V-F4; V-F5, V-F8; V-F2, V-F3: three entries. -/
theorem witness_FetchHasFourOutcomes :
    ((2#32).toNat % 4 ≠ 0 ∧ (14#32).toNat % 4 ≠ 0) ∧ (12#32).toNat = 4 * 3 ∧
    ((16#32).toNat % 4 = 0 ∧ 3 < (16#32).toNat / 4 ∧ (0xFFFFFFFC#32).toNat % 4 = 0 ∧ 3 < (0xFFFFFFFC#32).toNat / 4) ∧
    (0 < 3 ∧ (0#32).toNat = 4 * 0) ∧ (2 < 3 ∧ (8#32).toNat = 4 * 2) := by decide

theorem witness_OnlyARunningMachineSteps : State.reset.status = .running ∧
    (State.reset.setPc 0#32).status = .running ∧ (State.raise (.pcMisaligned 2#32) State.reset).status =
      .faulted (.pcMisaligned 2#32) ∧
    { State.reset with status := .halted }.status = Status.halted ∧
    (State.reset.withFetchWord 32 0).status = .loadFailed (.unsupportedOpcode 0#7) 0 (tableWordLine 32 0) :=
  ⟨rfl, rfl, rfl, rfl, rfl⟩

/-- The state in which the empty program has halted. -/
theorem witness_ObservationIsTakenAtTheNormalEnd : Inv false { State.reset with status := .halted } ∧
    { State.reset with status := .halted }.observation = some (State.reset.x, [], 0#32) :=
  ⟨⟨rfl, by decide, by simp [State.reset], rfl, rfl⟩, rfl⟩

/-- V-F6, V-F1, V-F5, V-LS8: one step for each of the four ways a step ends a run. -/
theorem witness_StepErrorsArePrecise :
    (∃ t, step (start 0#32 0#32 2#32 3) = .next t ∧ t.status = .faulted (.pcMisaligned 2#32)) ∧
    (∃ t, step State.reset = .next t ∧ t.status = .halted) ∧
    (∃ t, step (start 0#32 0#32 16#32 3) = .next t ∧ t.status = .faulted (.pcOutOfRange 16#32)) ∧
    (∃ t, step (startWith ⟨.lw 3#5 2#5 0#12 2#3, 0x00012183#32⟩ 0#32 0xFFFFFFFF#32) = .next t ∧
      t.status = .faulted (.outOfBounds .memory (-1) 0#32)) :=
  ⟨⟨_, rfl, rfl⟩, ⟨_, rfl, rfl⟩, ⟨_, rfl, rfl⟩, ⟨_, rfl, rfl⟩⟩

/-- `bne x1, x2, -8` taken (V-B5's instruction) and `add`, not a branch. -/
theorem witness_PcMovesByFourOrByTheBranchImmediate :
    let s := startWith ⟨.bne 1#5 2#5 0b1111111#7 0b11001#5, 0xFE209CE3#32⟩ 1#32 0#32
    let u := startWith ⟨.add 3#5 1#5 2#5, 0x002081B3#32⟩ 1#32 0#32
    (s.status = .running ∧ fetch s.program s.pc = .instr ⟨.bne 1#5 2#5 0b1111111#7 0b11001#5, 0xFE209CE3#32⟩ ∧
      (∃ t, step s = .next t ∧ t.status = .running) ∧ BranchTaken (.bne 1#5 2#5 0b1111111#7 0b11001#5) s) ∧
    (u.status = .running ∧ fetch u.program u.pc = .instr ⟨.add 3#5 1#5 2#5, 0x002081B3#32⟩ ∧
      (∃ t, step u = .next t ∧ t.status = .running) ∧ ¬ BranchTaken (.add 3#5 1#5 2#5) u) := by
  refine ⟨⟨rfl, rfl, ⟨_, rfl, rfl⟩, 2#5, rfl, .inr ⟨rfl, by decide⟩⟩, ⟨rfl, rfl, ⟨_, rfl, rfl⟩, ?_⟩⟩
  rintro ⟨r2, -, ⟨h, -⟩ | ⟨h, -⟩⟩ <;> cases h

/-- A branch by 6 to a misaligned pc (V-BI7), by −4096 out of range (V-B13) and by 4 to the end. -/
theorem witness_BranchTargetIsCaughtAtTheNextFetch :
    (∃ t, step (startWith ⟨.beq 1#5 2#5 0#7 6#5, 0x00208363#32⟩ 5#32 5#32) = .next t ∧ t.pc.toNat % 4 ≠ 0) ∧
    (∃ t, step (startWith ⟨.beq 1#5 2#5 0b1000000#7 0#5, 0x80208063#32⟩ 5#32 5#32) = .next t ∧
      t.pc.toNat % 4 = 0 ∧ t.program.length < t.pc.toNat / 4) ∧
    (∃ t, step (startWith ⟨.beq 0#5 0#5 0#7 4#5, 0x00000263#32⟩ 5#32 5#32) = .next t ∧
      t.pc.toNat = 4 * t.program.length) ∧
    (Instr.beq 1#5 2#5 0#7 6#5).format = .b :=
  ⟨⟨_, rfl, by decide⟩, ⟨_, rfl, by decide⟩, ⟨_, rfl, by decide⟩, rfl⟩

/-- V-B7 and P8. -/
theorem witness_SelfBranchRunsForEver :
    let s := startWith ⟨.beq 0#5 0#5 0#7 0#5, 0x00000063#32⟩ 0#32 0#32
    s.status = .running ∧ fetch s.program s.pc = .instr ⟨.beq 0#5 0#5 0#7 0#5, 0x00000063#32⟩ :=
  ⟨rfl, rfl⟩

/-- At a state whose pc is aligned and past its program. -/
theorem witness_PlacedInstructionIsRunNext : decodeTableWord 32 0x00500093 = some (.addi 1#5 0#5 5#12 0#3) ∧
    (start 0#32 0#32 16#32 3).pc.toNat % 4 = 0 := by decide

/-- The text of `n` lines `0`. -/
def zeroLines (n : Nat) : List Char := (List.replicate n ['0', '\n']).flatten

theorem programLines_zeroLines (n : Nat) : (programLines (zeroLines n)).length = n := by
  have h : splitLines (zeroLines n) = List.replicate n ['0'] ++ [[]] := by
    unfold zeroLines
    induction n with
    | zero => rfl
    | succ n ih => simp [List.replicate_succ, splitLines, ih]
  simp [programLines, h]

/-- V-L1 loads, P7's second line does not, and a text has one line too many. -/
theorem witness_LoadDecodesEveryLineOrNamesTheFirstBadOne :
    (∃ text, 2 ^ 30 < (programLines text).length) ∧ (programLines []).length ≤ 2 ^ 30 ∧
    (programLines "00000010001000001000000110110011\n00000000000000000000000001110011".toList).length ≤ 2 ^ 30 ∧
    (loaded "00000010001000001000000110110011\n00000000000000000000000001110011".toList).map (·.status) =
      some (.loadFailed (.unsupportedFunct 0b0110011#7 0#3 (some 1#7)) 0 "00000010001000001000000110110011".toList) := by
  refine ⟨⟨zeroLines (2 ^ 30 + 1), ?_⟩, by decide, by decide, by decide⟩
  rw [programLines_zeroLines]
  omega

theorem witness_LoadMeetsTheInvariant : loadText true [] = .next State.reset ∧
    ∃ s, loadText true ['0'] = .next s ∧ s.status = .loadFailed .malformedEncoding 0 ['0'] :=
  ⟨rfl, _, rfl, rfl⟩

/-- A state that meets the invariant, is no reset state, and takes a step that stores. -/
theorem witness_StepKeepsTheInvariant :
    let s := { startWith ⟨.sw 2#5 1#5 0#7 0#5 2#3, 0x00112023#32⟩ 7#32 255#32 with mem := [(4, 9#32)] }
    Inv true s ∧ ∃ t, step s = .next t ∧ t.mem = [(4, 9#32), (255, 7#32)] := by
  refine ⟨⟨by decide, by decide, ?_, by decide, trivial⟩, ⟨_, rfl, by decide⟩⟩
  intro d hd
  obtain rfl : d = ⟨.sw 2#5 1#5 0#7 0#5 2#3, 0x00112023#32⟩ := by simpa [startWith] using hd
  exact decode_of_eval (by decide)

theorem witness_ErrorCodesAreTheListedOnes : (start 7#32 256#32).status = .running ∧
    ∃ t, exec (.sw 2#5 1#5 0#7 0#5 2#3) (start 7#32 256#32) = .next t ∧ t.status ≠ .running :=
  ⟨rfl, _, rfl, by decide⟩

end Sys2Proof.Tests
end

/-! PROOFS. The registers: `x0` is ordinary, and each instruction reads and writes the listed registers
(spec/10_state.md R15, R17). -/
namespace Sys2Proof.Machine

/-! ### The arithmetic of the instruction rules as operations on words -/

/-- The resolver's value less `2^w` under a leading 1 is the two's-complement value (30_encoding.md R61). -/
theorem simpleImmediate_eq_toInt {w : Nat} (f : BitVec w) : simpleImmediate f = f.toInt := by
  rw [simpleImmediate, BitVec.toInt_eq_msb_cond]
  split <;> simp

theorem ofInt_toNat_add (a : Word) (d : Int) : BitVec.ofInt 32 ((a.toNat : Int) + d) = a + toWord d := by
  rw [BitVec.ofInt_add, BitVec.ofInt_natCast, BitVec.ofNat_toNat, BitVec.setWidth_eq, toWord]

theorem ofInt_toNat_sub (a b : Word) : BitVec.ofInt 32 ((a.toNat : Int) - b.toNat) = a - b := by
  rw [Int.sub_eq_add_neg, ofInt_toNat_add, toWord, BitVec.ofInt_neg, BitVec.ofInt_natCast, BitVec.ofNat_toNat,
    BitVec.setWidth_eq, BitVec.sub_eq_add_neg]

/-! ### An instruction settles the result that its rule names -/

@[simp] theorem State.commit_regEffect_reg (rd : RegIdx) (v : Word) (s : State) :
    (s.commit (s.regEffect rd v)).reg rd = v := by
  simp [State.commit_reg]

theorem exec_lw_of_loadIndex {s : State} {rs1 : RegIdx} {imm : BitVec 12} {a : Nat} (h : s.loadIndex rs1 imm = .ok a)
    (rd : RegIdx) (f3 : BitVec 3) :
    exec (.lw rd rs1 imm f3) s = .next (s.commit (s.regEffect rd (s.memRead a))) := by
  simp [exec, execLw, h]

/-- Executing an instruction commits the effect of its rule or raises the error of its rule, and nothing else. -/
theorem exec_eq_settle_executeResult (i : Instr) (s : State) : exec i s = s.settle (executeResult i s) := by
  cases i with
  | add | and | or => rfl
  | sub rd rs1 rs2 => simp only [executeResult, ofInt_toNat_sub]; rfl
  | addi rd rs1 imm f3 => simp only [executeResult, ofInt_toNat_add, ← simpleImmediate_eq_toInt]; rfl
  | lw rd rs1 imm f3 => simp only [exec, execLw, executeResult]; cases s.loadIndex rs1 imm <;> rfl
  | sw rs1 rs2 hi lo f3 => simp only [exec, execSw, executeResult]; cases s.storeIndex rs1 lo <;> rfl
  | beq rs1 rs2 hi lo => simp only [executeResult, ofInt_toNat_add]; rfl
  | bne rs1 rs2 hi lo =>
    simp only [exec, execBne, executeResult, ofInt_toNat_add, ne_eq, ite_not]; rfl

/-- The effect of an instruction's rule writes the register `rd` of the instruction, and none when it has no `rd`. -/
theorem executeResult_regWrite {i : Instr} {s : State} {e : Effect} (h : executeResult i s = .ok e) :
    e.regWrite.map Prod.fst = i.rd := by
  cases i with
  | add | sub | and | or | addi | beq | bne => cases h; rfl
  | lw rd rs1 imm f3 => simp only [executeResult] at h; split at h <;> cases h; rfl
  | sw rs1 rs2 hi lo f3 => simp only [executeResult] at h; split at h <;> cases h; rfl

/-! ### The registers an instruction writes -/

/-- R17's column "writes" is the field `rd` where the format has one. -/
theorem registersWritten_eq (i : Instr) : registersWritten i = i.rd.toList := by
  cases i <;> rfl

theorem mem_registersWritten {i : Instr} {q : RegIdx} : q ∈ registersWritten i ↔ i.rd = some q := by
  rw [registersWritten_eq, Option.mem_toList]

/-- No instruction changes a register other than its `rd`, whether it commits or raises an error. -/
theorem exec_reg_of_rd_ne {i : Instr} {s t : State} {q : RegIdx} (h : exec i s = .next t) (hq : i.rd ≠ some q) :
    t.reg q = s.reg q := by
  rcases exec_cases i s with ⟨e, he, hn⟩ | ⟨a, -, -, hn⟩ <;> cases hn.symm.trans h
  · rw [State.commit_reg]
    rw [← he.reg] at hq
    cases hw : e.regWrite with
    | none => rfl
    | some w => exact if_neg fun hqw => hq (by simp [hw, hqw])
  · exact State.raise_reg ..

/-! ### The registers an instruction reads -/

/-- R17's column "reads" is the field `rs1` and, where the format has one, `rs2`. -/
theorem registersRead_eq (i : Instr) : registersRead i = i.rs1 :: i.rs2.toList := by
  cases i <;> rfl

/-- The result of an instruction's rule depends on the memory, the pc and the registers that the instruction reads. -/
theorem executeResult_congr {i : Instr} {s s' : State} (hmem : s'.mem = s.mem) (hpc : s'.pc = s.pc)
    (hread : ∀ q ∈ registersRead i, s'.reg q = s.reg q) : executeResult i s' = executeResult i s := by
  have h1 : ∀ r1, i.rs1 = r1 → s'.reg r1 = s.reg r1 := fun r1 h => hread _ (by simp [registersRead_eq, h])
  have h2 : ∀ r2, i.rs2 = some r2 → s'.reg r2 = s.reg r2 := fun r2 h => hread _ (by simp [registersRead_eq, h])
  have hm : ∀ a, s'.memRead a = s.memRead a := fun a => by rw [State.memRead, hmem, State.memRead]
  cases i with
  | add rd rs1 rs2 | sub rd rs1 rs2 | and rd rs1 rs2 | or rd rs1 rs2 =>
    simp only [executeResult, h1 rs1 rfl, h2 rs2 rfl, hpc]
  | addi rd rs1 imm f3 => simp only [executeResult, h1 rs1 rfl, hpc]
  | lw rd rs1 imm f3 => simp only [executeResult, State.loadIndex, h1 rs1 rfl, hpc, hm]
  | sw rs1 rs2 hi lo f3 =>
    simp only [executeResult, State.storeIndex, h1 rs1 rfl, h2 rs2 rfl, hpc]
  | beq rs1 rs2 hi lo | bne rs1 rs2 hi lo =>
    simp only [executeResult, h1 rs1 rfl, h2 rs2 rfl, hpc]

/-- Two states with the same memory, pc, program and status that settle the same result agree on all of these again,
and on a register that the result writes. -/
theorem State.settle_congr {r : Except ExecError Effect} {s s' t t' : State} (hmem : s'.mem = s.mem) (hpc : s'.pc = s.pc)
    (hprog : s'.program = s.program) (hstatus : s'.status = s.status) (h : s.settle r = .next t)
    (h' : s'.settle r = .next t') :
    t'.mem = t.mem ∧ t'.pc = t.pc ∧ t'.program = t.program ∧ t'.status = t.status ∧
      ∀ e, r = .ok e → ∀ q, e.regWrite.map Prod.fst = some q → t'.reg q = t.reg q := by
  cases r with
  | error err =>
    cases h; cases h'
    simp [hmem, hpc, hprog]
  | ok e =>
    cases h; cases h'
    refine ⟨by simp only [State.commit_mem, hmem], by simp, by simp [hprog], by simp [hstatus], ?_⟩
    rintro _ ⟨⟩ q hq
    obtain ⟨⟨_, v⟩, hw, rfl⟩ := Option.map_eq_some_iff.mp hq
    simp [State.commit_reg, hw]

/-- A result whose settling leaves the machine `Running` is no error. -/
theorem State.ok_of_settle_running {r : Except ExecError Effect} {s t : State} (h : s.settle r = .next t)
    (ht : t.status = .running) : ∃ e, r = .ok e := by
  cases r with
  | ok e => exact ⟨e, rfl⟩
  | error err => cases h; simp at ht

/-- What an instruction does depends on no register but those it reads (10_state.md R17). -/
theorem exec_congr {i : Instr} {s s' t t' : State} (hmem : s'.mem = s.mem) (hpc : s'.pc = s.pc)
    (hprog : s'.program = s.program) (hstatus : s'.status = s.status)
    (hread : ∀ q ∈ registersRead i, s'.reg q = s.reg q) (h : exec i s = .next t) (h' : exec i s' = .next t') :
    t'.mem = t.mem ∧ t'.pc = t.pc ∧ t'.program = t.program ∧ t'.status = t.status ∧
      (t.status = .running → ∀ q ∈ registersWritten i, t'.reg q = t.reg q) := by
  rw [exec_eq_settle_executeResult] at h h'
  rw [executeResult_congr hmem hpc hread] at h'
  obtain ⟨hm, hp, hg, hs, hreg⟩ := State.settle_congr hmem hpc hprog hstatus h h'
  refine ⟨hm, hp, hg, hs, fun ht q hq => ?_⟩
  obtain ⟨e, he⟩ := State.ok_of_settle_running h ht
  exact hreg e he q ((executeResult_regWrite he).trans (mem_registersWritten.mp hq))

/-! ### The statements -/

/-- Settles O33: the register file reads back what it was given at every index, an instruction changes only its `rd`,
and each writing form commits its result to `x0` when that is its `rd`. -/
theorem registerZeroIsOrdinary : Obligations.RegisterZeroIsOrdinary := by
  unfold Obligations.RegisterZeroIsOrdinary
  refine ⟨State.reset_reg _, State.setReg_reg_self _, ?frame, ?add, ?sub, ?and, ?or, ?addi, ?lw⟩
  case frame => exact fun i s t h hne => not_not.mp fun hrd => hne (exec_reg_of_rd_ne h hrd)
  case add | sub | and | or => exact fun rs1 rs2 s => ⟨_, rfl, State.commit_regEffect_reg ..⟩
  case addi =>
    refine fun rs1 imm f3 s => ⟨_, rfl, ?_⟩
    rw [State.commit_regEffect_reg, simpleImmediate_eq_toInt, toWord, BitVec.signExtend]
  case lw => exact fun rs1 imm f3 a s h => ⟨_, exec_lw_of_loadIndex h .., State.commit_regEffect_reg ..⟩

/-- Settles O34: the table is the fields `rs1`, `rs2` and `rd` of the formats; the frame is that only `rd` changes, and
the independence is that the rule's result is a function of the registers read. -/
theorem instructionsReadAndWriteTheListedRegisters : Obligations.InstructionsReadAndWriteTheListedRegisters := by
  unfold Obligations.InstructionsReadAndWriteTheListedRegisters
  refine ⟨?_, ?_, ?_, ?_, ?_, ?_, ?_, ?_, ?_, ?frame, ?independence, ?number, ?every⟩
  case frame => exact fun i s t q h hq => exec_reg_of_rd_ne h (mt mem_registersWritten.mpr hq)
  case independence =>
    exact fun i s s' t t' _ hmem hpc hprog hstatus hread => exec_congr hmem hpc hprog hstatus hread
  case number =>
    intro i
    rw [registersRead_eq, registersWritten_eq]
    exact ⟨Nat.succ_le_succ Option.length_toList_le, Option.length_toList_le⟩
  case every => exact fun q => ⟨⟨.add q q q, .head _⟩, ⟨.add q q q, .head _⟩⟩
  all_goals intros; exact ⟨rfl, rfl⟩

end Sys2Proof.Machine

/-! PROOFS. The memory: an index outside 0..255 raises `OutOfBounds` and commits nothing (spec/20_memory.md R31). -/
namespace Sys2Proof.Machine

/-! ### What a load and a store do with the outcome of the bounds check -/

theorem exec_lw_of_loadIndex_error {s : State} {rs1 : RegIdx} {imm : BitVec 12} {e : ExecError}
    (h : s.loadIndex rs1 imm = .error e) (rd : RegIdx) (f3 : BitVec 3) :
    exec (.lw rd rs1 imm f3) s = .next (s.raise e) := by
  simp [exec, execLw, h]

theorem exec_sw_of_storeIndex {s : State} {rs1 : RegIdx} {lo : BitVec 5} {a : Nat} (h : s.storeIndex rs1 lo = .ok a)
    (rs2 : RegIdx) (hi : BitVec 7) (f3 : BitVec 3) :
    exec (.sw rs1 rs2 hi lo f3) s = .next (s.commit (s.memEffect a (s.reg rs2))) := by
  simp [exec, execSw, h]

theorem exec_sw_of_storeIndex_error {s : State} {rs1 : RegIdx} {lo : BitVec 5} {e : ExecError}
    (h : s.storeIndex rs1 lo = .error e) (rs2 : RegIdx) (hi : BitVec 7) (f3 : BitVec 3) :
    exec (.sw rs1 rs2 hi lo f3) s = .next (s.raise e) := by
  simp [exec, execSw, h]

/-! ### The statement -/

/-- Settles O36: the bounds check alone decides. Its error is raised, which changes only the status, and an index that
it accepts leads to a commit, which keeps the status. -/
theorem outOfBoundsCommitsNothing : Obligations.OutOfBoundsCommitsNothing := by
  unfold Obligations.OutOfBoundsCommitsNothing
  refine ⟨fun rd rs1 imm f3 s => ⟨fun hout => ?lwOutside, fun hin => ?lwInside⟩,
    fun rs1 rs2 hi lo f3 s => ⟨fun hout => ?swOutside, fun hin => ?swInside⟩⟩
  case lwOutside => exact exec_lw_of_loadIndex_error (checkIndex_outside hout s.pc) rd f3
  case lwInside => exact ⟨_, exec_lw_of_loadIndex (checkIndex_inside hin s.pc) rd f3, State.commit_status ..⟩
  case swOutside => exact exec_sw_of_storeIndex_error (checkIndex_outside hout s.pc) rs2 hi f3
  case swInside => exact ⟨_, exec_sw_of_storeIndex (checkIndex_inside hin s.pc) rs2 hi f3, State.commit_status ..⟩

end Sys2Proof.Machine

/-! PROOFS. The encoding: decoding a word is total and goes by the tables of the formats, and the immediate is taken from
the word's own fields (spec/30_encoding.md R47 to R67). -/
namespace Sys2Proof.Machine

/-! ### The two stages of decoding: the opcode's format, then the mnemonic -/

/-- An opcode outside the table ends the decoding at its first check. -/
theorem decodeWord_of_formatOf_none {w : Word} (h : formatOf (opcodeOf w) = none) (strict : Bool) :
    decodeWord strict w = .error (.unsupportedOpcode (opcodeOf w)) := by
  simp [decodeWord, h]

/-- With a format, the mnemonic alone decides: none is `UnsupportedFunct`, one gives the instruction of the word. -/
theorem decodeWord_of_formatOf_some {w : Word} {fmt : Format} (h : formatOf (opcodeOf w) = some fmt) (strict : Bool) :
    decodeWord strict w = (resolveMnemonic strict fmt (opcodeOf w) (funct3Of w) (funct7Of w)).elim
      (.error (.unsupportedFunct (opcodeOf w) (funct3Of w) (if fmt = .r then some (funct7Of w) else none)))
      (fun m => .ok (instrOf m w)) := by
  cases hm : resolveMnemonic strict fmt (opcodeOf w) (funct3Of w) (funct7Of w) <;> simp [decodeWord, h, hm]

/-- A word that does not decode fails at one of the two stages. -/
theorem decodeWord_error {strict : Bool} {w : Word} {e : DecodeError} (h : decodeWord strict w = .error e) :
    (formatOf (opcodeOf w) = none ∧ e = .unsupportedOpcode (opcodeOf w)) ∨
    (∃ fmt, formatOf (opcodeOf w) = some fmt ∧
      e = .unsupportedFunct (opcodeOf w) (funct3Of w) (if fmt = .r then some (funct7Of w) else none)) := by
  cases hf : formatOf (opcodeOf w) with
  | none =>
    rw [decodeWord_of_formatOf_none hf] at h
    cases h
    exact .inl ⟨rfl, rfl⟩
  | some fmt =>
    rw [decodeWord_of_formatOf_some hf] at h
    cases hm : resolveMnemonic strict fmt (opcodeOf w) (funct3Of w) (funct7Of w) <;> rw [hm] at h <;> cases h
    exact .inr ⟨fmt, rfl, rfl⟩

/-- `UnsupportedOpcode` is raised exactly where the table has no format. -/
theorem decodeWord_eq_unsupportedOpcode_iff (strict : Bool) (w : Word) :
    decodeWord strict w = .error (.unsupportedOpcode (opcodeOf w)) ↔ formatOf (opcodeOf w) = none := by
  refine ⟨fun h => ?_, fun h => decodeWord_of_formatOf_none h strict⟩
  rcases decodeWord_error h with ⟨hf, -⟩ | ⟨fmt, -, he⟩
  · exact hf
  · cases he

theorem formatOf_eq_none_iff (op : BitVec 7) :
    formatOf op = none ↔ op ∉ [0b0110011#7, 0b0000011#7, 0b0010011#7, 0b0100011#7, 0b1100011#7] := by
  revert op
  decide

/-! ### A decoded instruction and the fields of its word -/

theorem formatOf_opcode (i : Instr) : formatOf i.opcode = some i.format := by
  cases i <;> rfl

/-- The only instruction of the opcode `0100011` is `sw` (30_encoding.md R47). -/
theorem mnemonic_eq_sw_iff (i : Instr) : i.mnemonic = .sw ↔ i.opcode = 0b0100011#7 := by
  cases i <;> simp [Instr.mnemonic, Instr.opcode]

/-- A decoded instruction has the opcode of its word. -/
theorem opcodeOf_eq_opcode {strict : Bool} {w : Word} {i : Instr} (h : decodeWord strict w = .ok i) :
    opcodeOf w = i.opcode := by
  rcases decodeWord_cases strict w with ⟨ho, -, -, hd⟩ | ⟨ho, -, -, hd⟩ | ⟨ho, -, -, hd⟩ | ⟨ho, -, -, hd⟩ | ⟨ho, -, hd⟩ |
    ⟨ho, -, hd⟩ | ⟨ho, -, hd⟩ | ⟨ho, -, hd⟩ | ⟨ho, -, hd⟩ | ⟨-, -, -, -, -, hd⟩ | ⟨-, -, hd⟩ | ⟨-, -, -, hd⟩ |
    ⟨-, hd⟩ <;> cases hd.symm.trans h <;> exact ho

/-- A decoded instruction has the format that the opcode of its word selects. -/
theorem formatOf_opcodeOf {strict : Bool} {w : Word} {i : Instr} (h : decodeWord strict w = .ok i) :
    formatOf (opcodeOf w) = some i.format := by
  rw [opcodeOf_eq_opcode h, formatOf_opcode]

/-- A decoded instruction takes its operands from the fields of its word. -/
theorem eq_instrOf_mnemonic {strict : Bool} {w : Word} {i : Instr} (h : decodeWord strict w = .ok i) :
    i = instrOf i.mnemonic w := by
  obtain ⟨fmt, m, -, -, hi, rfl⟩ := decodeWord_ok h
  exact hi

/-- The opcode, `funct3` and `funct7` of a word decide the mnemonic, and with it the format. -/
theorem mnemonic_eq_of_fields_eq {strict : Bool} {v w : Word} {i j : Instr} (hop : opcodeOf v = opcodeOf w)
    (h3 : funct3Of v = funct3Of w) (h7 : funct7Of v = funct7Of w) (hi : decodeWord strict v = .ok i)
    (hj : decodeWord strict w = .ok j) : i.mnemonic = j.mnemonic := by
  obtain ⟨fmt, m, hf, hm, -, rfl⟩ := decodeWord_ok hi
  obtain ⟨fmt', m', hf', hm', -, rfl⟩ := decodeWord_ok hj
  obtain rfl : fmt = fmt' := Option.some.inj (by rw [← hf, ← hf', hop])
  rw [hop, h3, h7, hm'] at hm
  exact (Option.some.inj hm).symm

/-- Words that agree on their low bits agree on every field that lies within these. -/
theorem extractLsb'_eq_of_low_eq {v w : Word} {n k m : Nat} (h : v.extractLsb' 0 n = w.extractLsb' 0 n)
    (hkm : k + m ≤ n) : v.extractLsb' k m = w.extractLsb' k m := by
  rw [← BitVec.extractLsb'_extractLsb'_of_le (x := v) hkm, h, BitVec.extractLsb'_extractLsb'_of_le hkm]

/-- `imm_hi` and `funct3` of a store take no part in what it does. -/
theorem exec_sw_congr (rs1 rs2 : RegIdx) (hi hi' : BitVec 7) (lo : BitVec 5) (f3 f3' : BitVec 3) (s : State) :
    exec (.sw rs1 rs2 hi lo f3) s = exec (.sw rs1 rs2 hi' lo f3') s := rfl

/-! ### The statements -/

/-- Settles O3: the outcome of decoding is a success, whose instruction has the format of the opcode, or a failure at one
of the two stages; both stages read only the opcode, `funct3` and `funct7`. -/
theorem everyWordDecodesOrGivesANamedError : Obligations.EveryWordDecodesOrGivesANamedError := by
  unfold Obligations.EveryWordDecodesOrGivesANamedError
  refine ⟨fun strict w => ?outcome, fun strict v w i j hop h3 h7 hi hj => ?deterministic⟩
  case outcome =>
    cases hd : decodeWord strict w with
    | ok i => exact .inl ⟨⟨_, formatOf_opcodeOf hd⟩, i, rfl, formatOf_opcodeOf hd⟩
    | error e =>
      rcases decodeWord_error hd with ⟨hf, rfl⟩ | ⟨fmt, hf, rfl⟩
      · exact .inr (.inl ⟨hf, rfl⟩)
      · exact .inr (.inr ⟨⟨fmt, hf⟩, _, rfl⟩)
  case deterministic =>
    refine ⟨mnemonic_eq_of_fields_eq hop h3 h7 hi hj, Option.some.inj ?_⟩
    rw [← formatOf_opcodeOf hi, ← formatOf_opcodeOf hj, hop]

/-- Settles O5: the word has its instruction's opcode, and each instruction stands in the row of its opcode. -/
theorem opcodeSelectsFormatByTable : Obligations.OpcodeSelectsFormatByTable := by
  unfold Obligations.OpcodeSelectsFormatByTable
  refine ⟨fun strict w i hd => ?row, fun strict w => ?error⟩
  case row =>
    have hop : w.extractLsb' 0 7 = i.opcode := opcodeOf_eq_opcode hd
    rw [hop]
    cases i <;> simp [Instr.opcode, Instr.format, Instr.mnemonic]
  case error => exact (decodeWord_eq_unsupportedOpcode_iff strict w).trans (formatOf_eq_none_iff _)

/-- Settles O6: the opcode selects the format R, and its table is read in the statement's order. -/
theorem formatRResolvesByFunctFields : Obligations.FormatRResolvesByFunctFields := by
  unfold Obligations.FormatRResolvesByFunctFields
  intro strict w hop
  have hf : formatOf (opcodeOf w) = some .r := by rw [opcodeOf, hop]; rfl
  rw [decodeWord_of_formatOf_some hf, opcodeOf, hop, if_pos rfl]
  change (mnemonicR (w.extractLsb' 12 3) (w.extractLsb' 25 7)).elim _ _ = _
  unfold mnemonicR
  split_ifs <;> rfl

/-- Settles O7: the opcode selects the format B, and its table is read in the statement's order. -/
theorem formatBResolvesByFunct3 : Obligations.FormatBResolvesByFunct3 := by
  unfold Obligations.FormatBResolvesByFunct3
  intro strict w hop
  have hf : formatOf (opcodeOf w) = some .b := by rw [opcodeOf, hop]; rfl
  rw [decodeWord_of_formatOf_some hf, opcodeOf, hop, if_neg (show Format.b ≠ .r by decide)]
  change (mnemonicB (w.extractLsb' 12 3)).elim _ _ = _
  unfold mnemonicB
  split_ifs <;> rfl

/-- Settles O15: the simple immediate is the two's-complement value, and an `addi` word's `imm` is `w[31:20]`. -/
theorem simpleImmediateIsTwosComplement : Obligations.SimpleImmediateIsTwosComplement := by
  unfold Obligations.SimpleImmediateIsTwosComplement
  refine ⟨fun w f => simpleImmediate_eq_toInt f, fun w f => rfl, fun strict w i hd hm => ⟨?value, ?range⟩⟩
  case value =>
    rw [eq_instrOf_mnemonic hd, hm]
    rfl
  case range =>
    rw [simpleImmediate_eq_toInt]
    exact ⟨BitVec.le_toInt _, BitVec.toInt_le⟩

/-- Settles O18: both words have the opcode of `sw`, so both are stores; they have the same `rs1`, `rs2` and `imm_lo`,
which are all that a store reads of its word. -/
theorem storeIgnoresImmHi : Obligations.StoreIgnoresImmHi := by
  unfold Obligations.StoreIgnoresImmHi
  intro strict v w i j hi hj hsw hlow
  have hop : opcodeOf v = opcodeOf w := extractLsb'_eq_of_low_eq hlow (by decide)
  have hsw' : j.mnemonic = .sw := by
    rw [mnemonic_eq_sw_iff, ← opcodeOf_eq_opcode hj, ← hop, opcodeOf_eq_opcode hi, ← mnemonic_eq_sw_iff, hsw]
  have hrs1 : rs1Of v = rs1Of w := extractLsb'_eq_of_low_eq hlow (by decide)
  have hrs2 : rs2Of v = rs2Of w := extractLsb'_eq_of_low_eq hlow (by decide)
  have hlo : immLoOf v = immLoOf w := extractLsb'_eq_of_low_eq hlow (by decide)
  rw [eq_instrOf_mnemonic hi, eq_instrOf_mnemonic hj, hsw, hsw']
  refine ⟨rfl, by omega, fun s => ?_⟩
  simp only [instrOf, hrs1, hrs2, hlo]
  exact exec_sw_congr ..

/-- Settles O17: each clause is the resolver's row of that instruction, and the format R has four instructions. -/
theorem resolverGivesOneOperandValue : Obligations.ResolverGivesOneOperandValue := by
  unfold Obligations.ResolverGivesOneOperandValue
  refine ⟨fun _ _ _ _ => rfl, fun _ _ _ _ => rfl, fun _ _ _ _ _ => rfl, fun _ _ _ _ => rfl, fun _ _ _ _ => rfl,
    fun i hr => ?formatR⟩
  cases i with
  | add | sub | and | or => rfl
  | addi | lw | sw | beq | bne => cases hr

end Sys2Proof.Machine

/-! PROOFS. The control lines and the step: a step runs the instruction it fetches, which has all of its effects or none
(spec/40_control_datapath.md R75, R92, R93). -/
namespace Sys2Proof.Machine

/-! ### What an execution does with the result of the instruction's rule -/

theorem exec_of_executeResult_ok {i : Instr} {s : State} {e : Effect} (h : executeResult i s = .ok e) :
    exec i s = .next (s.commit e) := by
  rw [exec_eq_settle_executeResult, h, State.settle_ok]

theorem exec_of_executeResult_error {i : Instr} {s : State} {err : ExecError} (h : executeResult i s = .error err) :
    exec i s = .next (s.raise err) := by
  rw [exec_eq_settle_executeResult, h, State.settle_error]

/-! ### An outcome mapped by a function -/

theorem except_map_eq_error_iff {ε α β : Type} {f : α → β} {x : Except ε α} {err : ε} :
    x.map f = .error err ↔ x = .error err := by
  cases x <;> simp [Except.map]

theorem except_map_eq_ok_iff {ε α β : Type} {f : α → β} {x : Except ε α} {b : β} :
    x.map f = .ok b ↔ ∃ a, x = .ok a ∧ f a = b := by
  cases x <;> simp [Except.map]

/-! ### The rules of load and store, as functions of the outcome of the bounds check -/

theorem executeResult_lw (rd rs1 : RegIdx) (imm : BitVec 12) (f3 : BitVec 3) (s : State) :
    executeResult (.lw rd rs1 imm f3) s = (s.loadIndex rs1 imm).map fun a => s.regEffect rd (s.memRead a) := by
  rw [executeResult]
  cases s.loadIndex rs1 imm <;> rfl

theorem executeResult_sw (rs1 rs2 : RegIdx) (hi : BitVec 7) (lo : BitVec 5) (f3 : BitVec 3) (s : State) :
    executeResult (.sw rs1 rs2 hi lo f3) s = (s.storeIndex rs1 lo).map fun a => s.memEffect a (s.reg rs2) := by
  rw [executeResult]
  cases s.storeIndex rs1 lo <;> rfl

/-- A store's index that the bounds check accepts is a word of the memory (20_memory.md R31). -/
theorem State.storeIndex_le {s : State} {rs1 : RegIdx} {lo : BitVec 5} {a : Nat} (h : s.storeIndex rs1 lo = .ok a) :
    a ≤ 255 := by
  obtain ⟨-, -, -, ha⟩ := checkIndex_ok h
  exact Nat.le_of_lt_succ ha

/-! ### The memory write and the error of an instruction's rule -/

/-- The effect of an instruction's rule writes memory exactly for `sw`: the value of `rs2`, at the index that the bounds
check has accepted. -/
theorem executeResult_memWrite_cases {i : Instr} {s : State} {e : Effect} (h : executeResult i s = .ok e) :
    (i.mnemonic ≠ .sw ∧ e.memWrite = none) ∨
    ∃ lo rs2 a, i.mnemonic = .sw ∧ i.immLo = some lo ∧ i.rs2 = some rs2 ∧ s.storeIndex i.rs1 lo = .ok a ∧
      e.memWrite = some (a, s.reg rs2) := by
  cases i with
  | add | sub | and | or | addi | beq | bne => cases h; exact .inl ⟨by simp [Instr.mnemonic], rfl⟩
  | lw rd rs1 imm f3 =>
    rw [executeResult_lw, except_map_eq_ok_iff] at h
    obtain ⟨a, -, rfl⟩ := h
    exact .inl ⟨by simp [Instr.mnemonic], rfl⟩
  | sw rs1 rs2 hi lo f3 =>
    rw [executeResult_sw, except_map_eq_ok_iff] at h
    obtain ⟨a, ha, rfl⟩ := h
    exact .inr ⟨lo, rs2, a, rfl, rfl, rfl, ha, rfl⟩

/-- An instruction's rule raises exactly the error of the bounds check of `lw` and of `sw`. -/
theorem executeResult_eq_error_iff (i : Instr) (s : State) (err : ExecError) :
    executeResult i s = .error err ↔
      (∃ imm, i.mnemonic = .lw ∧ i.imm = some imm ∧ s.loadIndex i.rs1 imm = .error err) ∨
      (∃ lo, i.mnemonic = .sw ∧ i.immLo = some lo ∧ s.storeIndex i.rs1 lo = .error err) := by
  cases i with
  | add | sub | and | or | addi | beq | bne => simp [executeResult, Instr.mnemonic]
  | lw rd rs1 imm f3 => simp [executeResult_lw, except_map_eq_error_iff, Instr.mnemonic, Instr.imm, Instr.rs1]
  | sw rs1 rs2 hi lo f3 => simp [executeResult_sw, except_map_eq_error_iff, Instr.mnemonic, Instr.immLo, Instr.rs1]

/-! ### The step from `Running` -/

/-- A step from `Running` that finds an instruction is the execution of it. -/
theorem step_of_fetch_instr {s : State} {d : Decoded} (hs : s.status = .running)
    (hf : fetch s.program s.pc = .instr d) : step s = exec d.instr s := by
  rw [step_running hs, hf, afterFetch]

/-! ### The statements -/

/-- Settles O41: the execution settles the rule's result, so it commits an effect or raises an error; what the effect
writes and which error is raised is read off the rule, and what a commit changes off the commit. -/
theorem commitIsAllOrNothing : Obligations.CommitIsAllOrNothing := by
  unfold Obligations.CommitIsAllOrNothing
  refine ⟨fun i s e h => exec_of_executeResult_ok h, fun i s err h => exec_of_executeResult_error h,
    fun i s e h => ⟨executeResult_regWrite h, ?storesOnlyForSw, ?storesAtStoreIndex⟩, executeResult_eq_error_iff,
    fun e s => ⟨State.commit_pc e s, State.commit_program e s, State.commit_status e s, State.commit_reg e s,
      State.commit_memRead e s⟩⟩
  case storesOnlyForSw =>
    rcases executeResult_memWrite_cases h with ⟨hne, hw⟩ | ⟨lo, rs2, a, hsw, -, -, -, hw⟩
    · exact iff_of_true hw hne
    · simp [hw, hsw]
  case storesAtStoreIndex =>
    intro a v ha
    rcases executeResult_memWrite_cases h with ⟨-, hw⟩ | ⟨lo, rs2, b, -, hlo, hrs2, hb, hw⟩ <;> cases hw.symm.trans ha
    exact ⟨lo, hlo, hb, State.storeIndex_le hb, by rw [hrs2]; rfl⟩

/-- Settles O19: each line of the generator is the Boolean form of its condition on the format and the mnemonic. -/
theorem controlLinesFollowTheTable : Obligations.ControlLinesFollowTheTable := by
  unfold Obligations.ControlLinesFollowTheTable
  refine fun i => ⟨beq_iff_eq, ?regWrite, beq_iff_eq, beq_iff_eq, beq_iff_eq, beq_iff_eq, ?aluSource, beq_iff_eq,
    beq_iff_eq⟩
  case regWrite | aluSource => simp only [controlVector, controlOf, Bool.or_eq_true, beq_iff_eq, or_assoc]

/-- Settles O40: the step is what the fetch found, and an instruction's execution settles the result of its rule; a commit
keeps the status. -/
theorem stepRunsTheFetchedInstruction : Obligations.StepRunsTheFetchedInstruction := by
  unfold Obligations.StepRunsTheFetchedInstruction
  refine ⟨fun s hs hf => ?endOfProgram, fun s e hs hf => ?fetchError, fun s d hs hf => step_of_fetch_instr hs hf,
    fun s d e hs hf he => ⟨?commits, ?staysRunning⟩, fun s d err hs hf he => ?raises⟩
  case endOfProgram => rw [step_running hs, hf, afterFetch]
  case fetchError => rw [step_running hs, hf, afterFetch, State.raise]
  case commits => rw [step_of_fetch_instr hs hf, exec_of_executeResult_ok he]
  case staysRunning => rw [State.commit_status, hs]
  case raises => rw [step_of_fetch_instr hs hf, exec_of_executeResult_error he, State.raise]

end Sys2Proof.Machine

/-! PROOFS. Register and immediate arithmetic: `add`, `sub`, `and`, `or` and `addi` have their encodings, control lines,
ALU operations and results (spec/41_alu.md R97 to R102). -/
namespace Sys2Proof.Machine

/-! ### The words of a mnemonic: by their fields, and by the row of the opcode table -/

/-- The fields of the word select the mnemonic: the opcode (30_encoding.md R47), and the funct fields as far as its format
and `strictFunct3` look at them (R53 to R57). -/
def FieldsSelect (strict : Bool) (w : Word) : Mnemonic → Prop
  | .add => opcodeOf w = 0b0110011#7 ∧ funct3Of w = 0b000#3 ∧ funct7Of w = 0b0000000#7
  | .sub => opcodeOf w = 0b0110011#7 ∧ funct3Of w = 0b000#3 ∧ funct7Of w = 0b0100000#7
  | .and => opcodeOf w = 0b0110011#7 ∧ funct3Of w = 0b111#3 ∧ funct7Of w = 0b0000000#7
  | .or => opcodeOf w = 0b0110011#7 ∧ funct3Of w = 0b110#3 ∧ funct7Of w = 0b0000000#7
  | .addi => opcodeOf w = 0b0010011#7 ∧ (strict = false ∨ funct3Of w = 0b000#3)
  | .lw => opcodeOf w = 0b0000011#7 ∧ (strict = false ∨ funct3Of w = 0b010#3)
  | .sw => opcodeOf w = 0b0100011#7 ∧ (strict = false ∨ funct3Of w = 0b010#3)
  | .beq => opcodeOf w = 0b1100011#7 ∧ funct3Of w = 0b000#3
  | .bne => opcodeOf w = 0b1100011#7 ∧ funct3Of w = 0b001#3

/-- The fields of a word that decodes select the mnemonic of its instruction. -/
theorem fieldsSelect_of_decodeWord {strict : Bool} {w : Word} {i : Instr} (h : decodeWord strict w = .ok i) :
    FieldsSelect strict w i.mnemonic := by
  rcases decodeWord_cases strict w with ⟨ho, h3, h7, hd⟩ | ⟨ho, h3, h7, hd⟩ | ⟨ho, h3, h7, hd⟩ | ⟨ho, h3, h7, hd⟩ |
    ⟨ho, h3, hd⟩ | ⟨ho, h3, hd⟩ | ⟨ho, h3, hd⟩ | ⟨ho, h3, hd⟩ | ⟨ho, h3, hd⟩ | ⟨-, -, -, -, -, hd⟩ | ⟨-, -, hd⟩ |
    ⟨-, -, -, hd⟩ | ⟨-, hd⟩ <;> cases hd.symm.trans h
  case inl | inr.inl | inr.inr.inl | inr.inr.inr.inl => exact ⟨ho, h3, h7⟩
  all_goals exact ⟨ho, h3⟩

/-- A word whose fields select a mnemonic decodes to the instruction of that mnemonic. -/
theorem decodeWord_of_fieldsSelect {strict : Bool} {w : Word} {m : Mnemonic} (h : FieldsSelect strict w m) :
    decodeWord strict w = .ok (instrOf m w) := by
  cases m with
  | add | sub | and | or =>
    obtain ⟨ho, h3, h7⟩ := h
    have hf : formatOf (opcodeOf w) = some .r := by rw [ho]; rfl
    rw [decodeWord_of_formatOf_some hf, h3, h7]
    rfl
  | addi | lw =>
    obtain ⟨ho, h3⟩ := h
    have hf : formatOf (opcodeOf w) = some .i := by rw [ho]; rfl
    rw [decodeWord_of_formatOf_some hf]
    simp [resolveMnemonic, mnemonicI, ho, h3]
  | sw =>
    obtain ⟨ho, h3⟩ := h
    have hf : formatOf (opcodeOf w) = some .s := by rw [ho]; rfl
    rw [decodeWord_of_formatOf_some hf]
    simp [resolveMnemonic, mnemonicS, h3]
  | beq | bne =>
    obtain ⟨ho, h3⟩ := h
    have hf : formatOf (opcodeOf w) = some .b := by rw [ho]; rfl
    rw [decodeWord_of_formatOf_some hf, h3]
    rfl

@[simp] theorem instrOf_mnemonic (m : Mnemonic) (w : Word) : (instrOf m w).mnemonic = m := by
  cases m <;> rfl

/-- A word decodes to a mnemonic exactly when its fields select it, and the instruction takes its operands from the
word. -/
theorem decodeWord_mnemonic_iff (strict : Bool) (w : Word) (i : Instr) (m : Mnemonic) :
    decodeWord strict w = .ok i ∧ i.mnemonic = m ↔ FieldsSelect strict w m ∧ i = instrOf m w := by
  constructor
  · rintro ⟨hd, rfl⟩
    exact ⟨fieldsSelect_of_decodeWord hd, eq_instrOf_mnemonic hd⟩
  · rintro ⟨hsel, rfl⟩
    exact ⟨decodeWord_of_fieldsSelect hsel, instrOf_mnemonic m w⟩

/-- A row of spec/opcode_table.json, read with its strict pair under `strictFunct3`, tests the fields that select its
mnemonic. -/
theorem mask_iff_fieldsSelect {row : OpcodeRow} (hrow : row ∈ opcodeTable) (strict : Bool) (w : Word) :
    w &&& (if strict then row.strictMask else row.mask) = (if strict then row.strictPattern else row.pattern) ↔
      FieldsSelect strict w row.mnemonic := by
  simp only [opcodeTable, List.mem_cons, List.not_mem_nil, or_false] at hrow
  rcases hrow with rfl | rfl | rfl | rfl | rfl | rfl | rfl | rfl | rfl <;> cases strict <;>
    simp [FieldsSelect, mask_add, mask_sub, mask_and, mask_or, mask_addi, mask_addi_strict, mask_lw, mask_lw_strict,
      mask_sw, mask_sw_strict, mask_beq, mask_bne]

/-- Every row of the opcode table is the encoding of its mnemonic. -/
theorem encodedAs_of_mem_opcodeTable {m : Mnemonic} {pattern mask strictPattern strictMask : Word}
    (hrow : ⟨m, pattern, mask, strictPattern, strictMask⟩ ∈ opcodeTable) :
    EncodedAs m (instrOf m) pattern mask strictPattern strictMask := by
  intro strict w i
  rw [mask_iff_fieldsSelect hrow, decodeWord_mnemonic_iff]

/-! ### The result of an instruction that writes one register -/

/-- Committing a register effect writes that register, moves the pc by 4 and leaves all else as it was. -/
theorem registerResult_commit_regEffect (rd : RegIdx) (v : Word) (s : State) :
    RegisterResult rd v s (s.commit (s.regEffect rd v)) := by
  refine ⟨State.commit_regEffect_reg .., fun q hq => ?otherRegister, fun a => ?memory, pcPlus4_toNat s.pc,
    State.commit_program .., State.commit_status ..⟩
  case otherRegister => simp [State.commit_reg, hq]
  case memory => simp [State.commit_memRead]

/-- An instruction whose rule is a register effect completes with that result. -/
theorem exec_registerResult {i : Instr} {s : State} {rd : RegIdx} {v : Word}
    (h : executeResult i s = .ok (s.regEffect rd v)) : ∃ t, exec i s = .next t ∧ RegisterResult rd v s t :=
  ⟨_, exec_of_executeResult_ok h, registerResult_commit_regEffect rd v s⟩

/-! ### The statements -/

/-- Settles O24: the encoding is the table's row; the rule's effect writes the sum to `rd`. -/
theorem addFollowsItsRule : Obligations.AddFollowsItsRule := by
  unfold Obligations.AddFollowsItsRule
  exact ⟨encodedAs_of_mem_opcodeTable (by decide),
    fun rd rs1 rs2 s => ⟨rfl, rfl, exec_registerResult rfl⟩⟩

/-- Settles O25: the encoding is the table's row; the rule's effect writes the difference to `rd`. -/
theorem subFollowsItsRule : Obligations.SubFollowsItsRule := by
  unfold Obligations.SubFollowsItsRule
  exact ⟨encodedAs_of_mem_opcodeTable (by decide),
    fun rd rs1 rs2 s => ⟨rfl, rfl, exec_registerResult rfl⟩⟩

/-- Settles O26: the encoding is the table's row; the rule's effect writes the conjunction to `rd`. -/
theorem andFollowsItsRule : Obligations.AndFollowsItsRule := by
  unfold Obligations.AndFollowsItsRule
  exact ⟨encodedAs_of_mem_opcodeTable (by decide),
    fun rd rs1 rs2 s => ⟨rfl, rfl, exec_registerResult rfl⟩⟩

/-- Settles O27: the encoding is the table's row; the rule's effect writes the disjunction to `rd`. -/
theorem orFollowsItsRule : Obligations.OrFollowsItsRule := by
  unfold Obligations.OrFollowsItsRule
  exact ⟨encodedAs_of_mem_opcodeTable (by decide),
    fun rd rs1 rs2 s => ⟨rfl, rfl, exec_registerResult rfl⟩⟩

/-- Settles O28: the encoding is the table's row with its strict pair; the operand is the two's-complement value of the
immediate, and the rule's effect writes the sum to `rd`. -/
theorem addiFollowsItsRule : Obligations.AddiFollowsItsRule := by
  unfold Obligations.AddiFollowsItsRule
  refine ⟨encodedAs_of_mem_opcodeTable (by decide),
    fun rd rs1 imm f3 s => ⟨rfl, rfl, ?operand, exec_registerResult rfl⟩⟩
  case operand => rw [aluImmediate, simpleImmediate_eq_toInt, toWord]

end Sys2Proof.Machine

/-! PROOFS. Loads and stores: `lw` and `sw` have their encodings, control lines, ALU operation and operand, and the
outcome that the bounds check of their index decides (spec/42_load_store.md R104, R105). -/
namespace Sys2Proof.Machine

/-! ### The result of a store -/

/-- Committing a memory effect writes that word, moves the pc by 4 and leaves all else as it was. -/
theorem storeResult_commit_memEffect (a : Nat) (v : Word) (s : State) :
    StoreResult a v s (s.commit (s.memEffect a v)) := by
  refine ⟨?word, fun b hb => ?otherWord, State.commit_reg _ s, pcPlus4_toNat s.pc, State.commit_program ..,
    State.commit_status ..⟩
  case word => simp [State.commit_memRead]
  case otherWord => simp [State.commit_memRead, hb]

/-! ### The statements -/

/-- Settles O29: the encoding is the table's row with its strict pair; the index is the base plus the offset in words,
and its bounds check decides between committing the register effect and raising the error. -/
theorem lwFollowsItsRule : Obligations.LwFollowsItsRule := by
  unfold Obligations.LwFollowsItsRule
  refine ⟨encodedAs_of_mem_opcodeTable (by decide), ?_⟩
  rintro rd rs1 imm f3 s _ rfl
  refine ⟨rfl, rfl, rfl, fun hin => ?inside, fun hout => ?outside⟩
  case inside =>
    exact ⟨_, exec_lw_of_loadIndex (checkIndex_inside hin s.pc) rd f3,
      registerResult_commit_regEffect ..⟩
  case outside => exact exec_lw_of_loadIndex_error (checkIndex_outside hout s.pc) rd f3

/-- Settles O30: the encoding is the table's row with its strict pair; the index is the base plus the offset in words,
and its bounds check decides between committing the store and raising the error. -/
theorem swFollowsItsRule : Obligations.SwFollowsItsRule := by
  unfold Obligations.SwFollowsItsRule
  refine ⟨encodedAs_of_mem_opcodeTable (by decide), ?_⟩
  rintro rs1 rs2 hi lo f3 s _ rfl
  refine ⟨rfl, rfl, rfl, fun hin => ?inside, fun hout => ?outside⟩
  case inside =>
    exact ⟨_, exec_sw_of_storeIndex (checkIndex_inside hin s.pc) rs2 hi f3,
      storeResult_commit_memEffect ..⟩
  case outside => exact exec_sw_of_storeIndex_error (checkIndex_outside hout s.pc) rs2 hi f3

end Sys2Proof.Machine

/-! PROOFS. Branches: `beq` and `bne` have their encodings, control lines and ALU operation, and move only the pc: to the
branch target when taken, to the next word when not (spec/43_branch.md R107, R108). -/
namespace Sys2Proof.Machine

/-! ### The result of a branch -/

/-- Committing an effect that only moves the pc leaves all else as it was. -/
theorem branchResult_commit_pcEffect {target : Word} {d : Int} {s : State}
    (hpc : (target.toNat : Int) = ((s.pc.toNat : Int) + d) % 2 ^ 32) :
    BranchResult d s (s.commit (pcEffect target)) :=
  ⟨hpc, State.commit_reg _ s, State.commit_memRead _ s, State.commit_program .., State.commit_status ..⟩

theorem branchResult_commit_branchTarget (immHi : BitVec 7) (immLo : BitVec 5) (s : State) :
    BranchResult (branchImmediate immHi immLo) s (s.commit (pcEffect (branchTarget s.pc immHi immLo))) :=
  branchResult_commit_pcEffect (branchTarget_toNat s.pc immHi immLo)

theorem branchResult_commit_pcPlus4 (s : State) : BranchResult 4 s (s.commit (pcEffect (pcPlus4 s.pc))) :=
  branchResult_commit_pcEffect (by exact_mod_cast pcPlus4_toNat s.pc)

/-- An instruction that goes to the branch target under a condition, and else to the next word, completes with the branch
result of the side that the condition decides. -/
theorem exec_branchResult {i : Instr} {s : State} {immHi : BitVec 7} {immLo : BitVec 5} {taken : Prop} [Decidable taken]
    (h : exec i s = .next (s.commit (pcEffect (if taken then branchTarget s.pc immHi immLo else pcPlus4 s.pc)))) :
    ∃ t, exec i s = .next t ∧ (taken → BranchResult (branchImmediate immHi immLo) s t) ∧
      (¬ taken → BranchResult 4 s t) := by
  refine ⟨_, h, fun ht => ?taken, fun ht => ?notTaken⟩
  case taken => rw [if_pos ht]; exact branchResult_commit_branchTarget immHi immLo s
  case notTaken => rw [if_neg ht]; exact branchResult_commit_pcPlus4 s

/-! ### The statements -/

/-- Settles O31: the encoding is the table's row; the branch condition is that the registers are equal. -/
theorem beqFollowsItsRule : Obligations.BeqFollowsItsRule := by
  unfold Obligations.BeqFollowsItsRule
  exact ⟨encodedAs_of_mem_opcodeTable (by decide),
    fun rs1 rs2 immHi immLo s => ⟨rfl, rfl, exec_branchResult rfl⟩⟩

/-- Settles O32: the encoding is the table's row; the branch condition is that the registers are unequal. -/
theorem bneFollowsItsRule : Obligations.BneFollowsItsRule := by
  unfold Obligations.BneFollowsItsRule
  refine ⟨encodedAs_of_mem_opcodeTable (by decide), fun rs1 rs2 immHi immLo s => ⟨rfl, rfl, ?_⟩⟩
  obtain ⟨t, hexec, htaken, hnotTaken⟩ :=
    exec_branchResult (i := .bne rs1 rs2 immHi immLo) (s := s) (taken := s.reg rs1 ≠ s.reg rs2) rfl
  exact ⟨t, hexec, htaken, fun heq => hnotTaken (not_not_intro heq)⟩

end Sys2Proof.Machine

/-! PROOFS. Encoding and decoding are inverse to each other: a word is its instruction's encoding, and the rows of the
opcode table part the words that decode (spec/30_encoding.md R47 to R59, spec/INDEX.md). -/
namespace Sys2Proof.Machine

/-! ### An instruction and its encoding -/

/-- The fields of an instruction's word are the operands of the instruction. -/
theorem instrOf_mnemonic_encode (i : Instr) : instrOf i.mnemonic (encode i) = i := by
  cases i <;> simp [encode, Instr.mnemonic, instrOf]

/-- The fields of an instruction's word select its mnemonic exactly when the instruction is well formed. -/
theorem fieldsSelect_encode_iff (strict : Bool) (i : Instr) :
    FieldsSelect strict (encode i) i.mnemonic ↔ i.wf strict = true := by
  cases i <;> simp [encode, Instr.mnemonic, FieldsSelect, Instr.wf]

/-- A word whose fields select a mnemonic is the encoding of the instruction of that mnemonic. -/
theorem encode_instrOf {strict : Bool} {w : Word} {m : Mnemonic} (h : FieldsSelect strict w m) :
    encode (instrOf m w) = w := by
  cases m with
  | add | sub | and | or =>
    obtain ⟨ho, h3, h7⟩ := h
    rw [instrOf, encode, ← ho, ← h3, ← h7, encodeR_fields]
  | addi | lw =>
    obtain ⟨ho, -⟩ := h
    rw [instrOf, encode, ← ho, encodeI_fields]
  | sw =>
    obtain ⟨ho, -⟩ := h
    rw [instrOf, encode, ← ho, encodeS_fields]
  | beq | bne =>
    obtain ⟨ho, h3⟩ := h
    rw [instrOf, encode, ← ho, ← h3, encodeS_fields]

theorem encode_of_decodeWord {strict : Bool} {w : Word} {i : Instr} (h : decodeWord strict w = .ok i) :
    encode i = w := by
  rw [eq_instrOf_mnemonic h, encode_instrOf (fieldsSelect_of_decodeWord h)]

/-- Settles O1: the word's fields are the instruction's operands, so decoding gives the instruction back as soon as they
select its mnemonic, which is its well-formedness. -/
theorem decodeEncodeRoundTrip : Obligations.DecodeEncodeRoundTrip := by
  unfold Obligations.DecodeEncodeRoundTrip
  intro strict i
  calc decodeWord strict (encode i) = .ok i
      ↔ decodeWord strict (encode i) = .ok i ∧ i.mnemonic = i.mnemonic := (and_iff_left rfl).symm
    _ ↔ FieldsSelect strict (encode i) i.mnemonic ∧ i = instrOf i.mnemonic (encode i) := decodeWord_mnemonic_iff ..
    _ ↔ FieldsSelect strict (encode i) i.mnemonic := and_iff_left (instrOf_mnemonic_encode i).symm
    _ ↔ i.wf strict = true := fieldsSelect_encode_iff strict i

/-- Settles O2: the word is made of the fields that the instruction took from it, and these select its mnemonic. -/
theorem encodeDecodeRoundTrip : Obligations.EncodeDecodeRoundTrip := by
  unfold Obligations.EncodeDecodeRoundTrip
  intro strict w i h
  have henc : encode i = w := encode_of_decodeWord h
  refine ⟨henc, ?_⟩
  rw [← fieldsSelect_encode_iff, henc]
  exact fieldsSelect_of_decodeWord h

/-! ### The rows of the opcode table -/

theorem exists_decodeWord_iff (strict : Bool) (w : Word) (m : Mnemonic) :
    (∃ i, decodeWord strict w = .ok i ∧ i.mnemonic = m) ↔ FieldsSelect strict w m :=
  ⟨fun ⟨_, hd, hm⟩ => hm ▸ fieldsSelect_of_decodeWord hd,
    fun h => ⟨_, decodeWord_of_fieldsSelect h, instrOf_mnemonic m w⟩⟩

/-- A word selects at most one mnemonic. -/
theorem fieldsSelect_unique {strict : Bool} {w : Word} {m m' : Mnemonic} (h : FieldsSelect strict w m)
    (h' : FieldsSelect strict w m') : m = m' := by
  have hi : instrOf m w = instrOf m' w :=
    Except.ok.inj ((decodeWord_of_fieldsSelect h).symm.trans (decodeWord_of_fieldsSelect h'))
  rw [← instrOf_mnemonic m w, hi, instrOf_mnemonic]

theorem OpcodeRow.holds_iff {row : OpcodeRow} (hrow : row ∈ opcodeTable) (strict : Bool) (w : Word) :
    row.holds strict w = true ↔ FieldsSelect strict w row.mnemonic := by
  rw [← mask_iff_fieldsSelect hrow]
  cases strict <;> simp [OpcodeRow.holds]

theorem exists_row (m : Mnemonic) : ∃ row ∈ opcodeTable, row.mnemonic = m := by
  cases m <;> decide

/-- Settles O4: a row holds exactly when the fields select its mnemonic, every mnemonic has a row, and the fields select
one mnemonic at most. -/
theorem opcodeTableRowsPartitionDecodableWords : Obligations.OpcodeTableRowsPartitionDecodableWords := by
  unfold Obligations.OpcodeTableRowsPartitionDecodableWords
  intro strict w m
  rw [exists_decodeWord_iff]
  constructor
  · intro hsel
    obtain ⟨row, hrow, rfl⟩ := exists_row m
    exact ⟨⟨row, hrow, rfl, (OpcodeRow.holds_iff hrow strict w).mpr hsel⟩,
      fun row' hrow' hw => fieldsSelect_unique ((OpcodeRow.holds_iff hrow' strict w).mp hw) hsel⟩
  · rintro ⟨⟨row, hrow, rfl, hw⟩, -⟩
    exact (OpcodeRow.holds_iff hrow strict w).mp hw

/-! ### The parameter `strictFunct3` -/

/-- The strict selection is the default one with the required `funct3`, which is the instruction's well-formedness. -/
theorem fieldsSelect_true_iff (w : Word) (m : Mnemonic) :
    FieldsSelect true w m ↔ FieldsSelect false w m ∧ (instrOf m w).wf true = true := by
  cases m <;> simp [FieldsSelect, instrOf, Instr.wf]

theorem decodeWord_true_iff (w : Word) (i : Instr) :
    decodeWord true w = .ok i ↔ decodeWord false w = .ok i ∧ i.wf true = true := by
  constructor
  · intro h
    obtain ⟨hsel, hwf⟩ := (fieldsSelect_true_iff w _).mp (fieldsSelect_of_decodeWord h)
    have hi := eq_instrOf_mnemonic h
    rw [← hi] at hwf
    exact ⟨(decodeWord_of_fieldsSelect hsel).trans (congrArg _ hi.symm), hwf⟩
  · rintro ⟨h, hwf⟩
    have hi := eq_instrOf_mnemonic h
    rw [hi] at hwf
    exact (decodeWord_of_fieldsSelect ((fieldsSelect_true_iff w _).mpr ⟨fieldsSelect_of_decodeWord h, hwf⟩)).trans
      (congrArg _ hi.symm)

/-- The error of a word that does not decode is a function of its fields: it does not depend on `strictFunct3`. -/
theorem decodeWord_error_unique {strict strict' : Bool} {w : Word} {e e' : DecodeError}
    (h : decodeWord strict w = .error e) (h' : decodeWord strict' w = .error e') : e = e' := by
  rcases decodeWord_error h with ⟨hf, rfl⟩ | ⟨fmt, hf, rfl⟩ <;>
    rcases decodeWord_error h' with ⟨hf', rfl⟩ | ⟨fmt', hf', rfl⟩ <;> cases hf.symm.trans hf' <;> rfl

/-- No instruction of the format R can be ill formed: `strictFunct3` does not look at its fields. -/
theorem format_ne_r_of_not_wf {strict : Bool} {i : Instr} (h : i.wf strict = false) : i.format ≠ .r := by
  cases i <;> simp [Instr.wf, Instr.format] at h ⊢

/-- Settles O8: the strict decoder accepts what the default one does when the instruction is well formed; the word's
format still stands where it refuses, so the error is `UnsupportedFunct`. -/
theorem strictFunct3OnlyNarrowsFormatsIAndS : Obligations.StrictFunct3OnlyNarrowsFormatsIAndS := by
  unfold Obligations.StrictFunct3OnlyNarrowsFormatsIAndS
  refine ⟨fun w hop => ?accepts, decodeWord_true_iff, fun w i hd hwf => ?refuses, fun w e hd => ?keepsErrors⟩
  case accepts =>
    have hsel : FieldsSelect false w .addi ∨ FieldsSelect false w .lw ∨ FieldsSelect false w .sw := by
      simpa [FieldsSelect, opcodeOf] using hop
    rcases hsel with hsel | hsel | hsel <;> exact ⟨_, decodeWord_of_fieldsSelect hsel⟩
  case refuses =>
    cases ht : decodeWord true w with
    | ok j =>
      obtain ⟨hj, hjwf⟩ := (decodeWord_true_iff w j).mp ht
      cases hd.symm.trans hj
      simp [hwf] at hjwf
    | error e =>
      rcases decodeWord_error ht with ⟨hf, -⟩ | ⟨fmt, hf, rfl⟩ <;> cases hf.symm.trans (formatOf_opcodeOf hd)
      rw [if_neg (format_ne_r_of_not_wf hwf)]
  case keepsErrors =>
    cases ht : decodeWord true w with
    | ok j =>
      obtain ⟨hj, -⟩ := (decodeWord_true_iff w j).mp ht
      cases hd.symm.trans hj
    | error e' => rw [decodeWord_error_unique ht hd]

end Sys2Proof.Machine

/-! PROOFS. The invariant: every fetch has one of four outcomes, so a step has five, and each of them keeps the invariant
(spec/40_control_datapath.md R91, R92, spec/10_state.md sections 5 and 6). -/
namespace Sys2Proof.Machine

/-! ### The outcomes of a fetch, by the pc -/

theorem fetch_misaligned (p : List Decoded) {pc : Word} (h : pc.toNat % 4 ≠ 0) :
    fetch p pc = .fault (.pcMisaligned pc) := by
  rw [fetch, if_pos h]

theorem fetch_at_end {p : List Decoded} {pc : Word} (h : pc.toNat = 4 * p.length) : fetch p pc = .endOfProgram := by
  rw [fetch, if_neg (by omega), if_pos (by omega)]

theorem fetch_past_end {p : List Decoded} {pc : Word} (h4 : pc.toNat % 4 = 0) (h : p.length < pc.toNat / 4) :
    fetch p pc = .fault (.pcOutOfRange pc) := by
  rw [fetch, if_neg (by omega), if_neg (by omega), List.getElem?_eq_none h.le]

theorem fetch_entry {p : List Decoded} {pc : Word} {k : Nat} {d : Decoded} (hpc : pc.toNat = 4 * k)
    (hd : p[k]? = some d) : fetch p pc = .instr d := by
  obtain ⟨hk, -⟩ := List.getElem?_eq_some_iff.mp hd
  rw [fetch, if_neg (by omega), if_neg (by omega), show pc.toNat / 4 = k by omega, hd]

/-- Settles O42: each clause is the equation of that outcome. -/
theorem fetchHasFourOutcomes : Obligations.FetchHasFourOutcomes := by
  unfold Obligations.FetchHasFourOutcomes
  exact fun p pc => ⟨fetch_misaligned p, fetch_at_end, fetch_past_end,
    fun k hk hpc => fetch_entry hpc (List.getElem?_eq_getElem hk)⟩

/-! ### The outcomes of a step -/

/-- Everything a step can answer with a next state: the three ends of a run that the fetch finds, the error of a load or
store, and the commit of an effect. -/
theorem step_cases {s t : State} (h : step s = .next t) : s.status = .running ∧
    ((s.pc.toNat % 4 ≠ 0 ∧ t = s.raise (.pcMisaligned s.pc)) ∨
     (s.pc.toNat = 4 * s.program.length ∧ t = { s with status := .halted }) ∨
     (s.pc.toNat % 4 = 0 ∧ s.program.length < s.pc.toNat / 4 ∧ t = s.raise (.pcOutOfRange s.pc)) ∨
     (∃ d a, fetch s.program s.pc = .instr d ∧ (d.instr.mnemonic = .lw ∨ d.instr.mnemonic = .sw) ∧
        (a < 0 ∨ 255 < a) ∧ t = s.raise (.outOfBounds .memory a s.pc)) ∨
     (∃ d e, fetch s.program s.pc = .instr d ∧ EffectOf d.instr s e ∧ t = s.commit e)) := by
  have hs := running_of_step h
  refine ⟨hs, ?_⟩
  rw [step_running hs] at h
  rcases fetch_cases s.program s.pc with ⟨hpc, hf⟩ | ⟨hpc, hf⟩ | ⟨hpc, hlen, hf⟩ | ⟨k, hk, -, hf⟩ <;> rw [hf] at h
  · cases h
    exact .inl ⟨hpc, rfl⟩
  · cases h
    exact .inr (.inl ⟨hpc, rfl⟩)
  · cases h
    exact .inr (.inr (.inl ⟨hpc, hlen, rfl⟩))
  · rcases exec_cases s.program[k].instr s with ⟨e, he, hn⟩ | ⟨a, ha, hm, hn⟩ <;> cases hn.symm.trans h
    · exact .inr (.inr (.inr (.inr ⟨_, e, hf, he, rfl⟩)))
    · exact .inr (.inr (.inr (.inl ⟨_, a, hf, hm, ha, rfl⟩)))

/-! ### The invariant -/

/-- A new status that tells the truth keeps the invariant: no other clause reads the status. -/
theorem Inv.with_status {strict : Bool} {s : State} (h : Inv strict s) (st : Status)
    (hst : StatusTrue strict { s with status := st }) : Inv strict { s with status := st } :=
  ⟨h.memory, h.length, h.decoded, h.even, hst⟩

/-- The next pc of an effect is even: both 4 and a branch immediate are. -/
theorem EffectOf.nextPc_even {i : Instr} {s : State} {e : Effect} (he : EffectOf i s e) (hs : s.pc.toNat % 2 = 0) :
    e.nextPc.toNat % 2 = 0 := by
  rcases he.pc with h | ⟨hi, lo, -, h⟩ <;> rw [h]
  · have hpc := pcPlus4_toNat s.pc
    omega
  · have hpc := branchTarget_toNat s.pc hi lo
    have heven := branchImmediate_even hi lo
    omega

/-- Committing an effect of an instruction keeps the canonical form of the memory: a store is inside it. -/
theorem EffectOf.commit_mem_wf {i : Instr} {s : State} {e : Effect} (he : EffectOf i s e) (hs : s.mem.wf = true) :
    (s.commit e).mem.wf = true := by
  rw [State.commit_mem]
  rcases he.mem with ⟨hw, -⟩ | ⟨a, v, ha, hw, -⟩ <;> rw [hw]
  · exact hs
  · exact Memory.wf_write hs ha v

/-- Committing an effect of an instruction from a `Running` state keeps the invariant. -/
theorem Inv.commit {strict : Bool} {s : State} {i : Instr} {e : Effect} (h : Inv strict s) (hs : s.status = .running)
    (he : EffectOf i s e) : Inv strict (s.commit e) where
  memory := he.commit_mem_wf h.memory
  length := by rw [State.commit_program]; exact h.length
  decoded := by rw [State.commit_program]; exact h.decoded
  even := he.nextPc_even h.even
  status := by simp [StatusTrue, hs]

/-- Settles O55: a step that ends the run changes only the status, to what the fetch or the bounds check has found; any
other step commits an effect, which keeps every clause. -/
theorem stepKeepsTheInvariant : Obligations.StepKeepsTheInvariant := by
  unfold Obligations.StepKeepsTheInvariant
  intro strict s t h hstep
  obtain ⟨hs, ⟨hpc, rfl⟩ | ⟨hpc, rfl⟩ | ⟨hpc, hlen, rfl⟩ | ⟨d, a, hf, -, ha, rfl⟩ | ⟨d, e, -, he, rfl⟩⟩ := step_cases hstep
  · exact h.with_status _ ⟨rfl, hpc⟩
  · exact h.with_status _ hpc
  · exact h.with_status _ ⟨rfl, hpc, hlen⟩
  · exact h.with_status _ ⟨rfl, ha, rfl, d, hf⟩
  · exact h.commit hs he

/-- Settles O53: nothing is loaded, so there is no entry to check, and the status is `Running`. -/
theorem resetMeetsTheInvariant : Obligations.ResetMeetsTheInvariant := by
  unfold Obligations.ResetMeetsTheInvariant
  exact fun strict => ⟨State.reset_mem_wf, Nat.zero_le _, List.forall_mem_nil _, rfl, trivial⟩

/-- Settles O45: of the five outcomes of a step, the commit keeps the status `Running`, and each of the others changes
only the status. -/
theorem stepErrorsArePrecise : Obligations.StepErrorsArePrecise := by
  unfold Obligations.StepErrorsArePrecise
  intro s t hstep hne
  obtain ⟨hs, ⟨hpc, rfl⟩ | ⟨hpc, rfl⟩ | ⟨hpc, hlen, rfl⟩ | ⟨d, a, hf, hm, ha, rfl⟩ | ⟨d, e, -, -, rfl⟩⟩ := step_cases hstep
  · exact ⟨rfl, .inl ⟨rfl, hpc⟩⟩
  · exact ⟨rfl, .inr (.inl ⟨rfl, hpc⟩)⟩
  · exact ⟨rfl, .inr (.inr (.inl ⟨rfl, hpc, hlen⟩))⟩
  · exact ⟨rfl, .inr (.inr (.inr ⟨d, a, hf, hm, rfl, ha⟩))⟩
  · exact absurd ((State.commit_status e s).trans hs) hne

end Sys2Proof.Machine

/-! PROOFS. The step and the end of a run: when a step exists, where the pc goes, and which runs end
(spec/40_control_datapath.md section 5, spec/43_branch.md, spec/60_exceptions.md section 3). -/
namespace Sys2Proof.Machine

/-! ### When a step exists -/

/-- Every instruction gives a next state, whether it commits or raises an error. -/
theorem exec_next (i : Instr) (s : State) : ∃ t, exec i s = .next t := by
  rcases exec_cases i s with ⟨e, -, h⟩ | ⟨a, -, -, h⟩ <;> exact ⟨_, h⟩

theorem step_of_halted {s : State} (h : s.status = .halted) : step s = .fault .halted := by
  simp [step, cycle, h]

/-- Settles O43: what a fetch finds is an end of the run or an instruction, and both give a next state; every other
status answers its fault. -/
theorem onlyARunningMachineSteps : Obligations.OnlyARunningMachineSteps := by
  unfold Obligations.OnlyARunningMachineSteps
  refine ⟨fun s h => ?running, fun s h => step_of_halted h, fun s e h => ?faulted, fun s e k line h => ?loadFailed⟩
  case running =>
    rw [step_running h]
    cases fetch s.program s.pc with
    | endOfProgram => exact ⟨_, rfl⟩
    | fault e => exact ⟨_, rfl⟩
    | instr d => exact exec_next d.instr s
  case faulted | loadFailed => simp [step, cycle, h]

/-- A state is observed exactly when its status is `Halted`. -/
theorem State.observation_eq_some_iff (s : State) (o : Vector Word 32 × Memory × Word) :
    s.observation = some o ↔ s.status = .halted ∧ o = (s.x, s.mem, s.pc) := by
  cases h : s.status <;> simp [State.observation, State.runEnd, h, eq_comm]

/-- Settles O44: an observed state is `Halted`, where the invariant gives the pc and no step exists. -/
theorem observationIsTakenAtTheNormalEnd : Obligations.ObservationIsTakenAtTheNormalEnd := by
  unfold Obligations.ObservationIsTakenAtTheNormalEnd
  refine fun strict s hinv => ⟨?observed, fun x m pc ho => ?observation⟩
  case observed => simp [Option.ne_none_iff_exists', State.observation_eq_some_iff]
  case observation =>
    obtain ⟨hs, ⟨⟩⟩ := (s.observation_eq_some_iff _).mp ho
    have htrue := hinv.status
    rw [StatusTrue, hs] at htrue
    exact ⟨rfl, rfl, rfl, htrue, step_of_halted hs⟩

/-! ### Where the pc goes -/

theorem branchTaken_beq (rs1 rs2 : RegIdx) (hi : BitVec 7) (lo : BitVec 5) (s : State) :
    BranchTaken (.beq rs1 rs2 hi lo) s ↔ s.reg rs1 = s.reg rs2 := by
  simp [BranchTaken, Instr.mnemonic, Instr.rs1, Instr.rs2]

theorem branchTaken_bne (rs1 rs2 : RegIdx) (hi : BitVec 7) (lo : BitVec 5) (s : State) :
    BranchTaken (.bne rs1 rs2 hi lo) s ↔ s.reg rs1 ≠ s.reg rs2 := by
  simp [BranchTaken, Instr.mnemonic, Instr.rs1, Instr.rs2]

/-- Only `beq` and `bne` are ever taken. -/
theorem BranchTaken.format_eq {i : Instr} {s : State} (h : BranchTaken i s) : i.format = .b := by
  obtain ⟨r2, -, ⟨hm, -⟩ | ⟨hm, -⟩⟩ := h <;> cases i <;> cases hm <;> rfl

theorem executeResult_nextPc_of_not_taken {i : Instr} {s : State} {e : Effect} (h : executeResult i s = .ok e)
    (ht : ¬ BranchTaken i s) : e.nextPc = pcPlus4 s.pc := by
  cases i with
  | add | sub | and | or | addi => cases h; rfl
  | lw rd rs1 imm f3 =>
    rw [executeResult_lw, except_map_eq_ok_iff] at h
    obtain ⟨a, -, rfl⟩ := h
    rfl
  | sw rs1 rs2 hi lo f3 =>
    rw [executeResult_sw, except_map_eq_ok_iff] at h
    obtain ⟨a, -, rfl⟩ := h
    rfl
  | beq rs1 rs2 hi lo =>
    rw [branchTaken_beq] at ht
    cases h
    exact if_neg ht
  | bne rs1 rs2 hi lo =>
    rw [branchTaken_bne, not_not] at ht
    cases h
    exact if_pos ht

theorem executeResult_nextPc_of_taken {i : Instr} {s : State} {e : Effect} (h : executeResult i s = .ok e)
    (ht : BranchTaken i s) : ∃ off, resolvedImmediate i = some off ∧ e.nextPc = s.pc + toWord off := by
  cases i with
  | add | sub | and | or | addi | lw | sw => cases ht.format_eq
  | beq rs1 rs2 hi lo =>
    rw [branchTaken_beq] at ht
    cases h
    exact ⟨_, rfl, (if_pos ht).trans (ofInt_toNat_add ..)⟩
  | bne rs1 rs2 hi lo =>
    rw [branchTaken_bne] at ht
    cases h
    exact ⟨_, rfl, (if_neg ht).trans (ofInt_toNat_add ..)⟩

/-- Settles O46: a step that stays `Running` commits the effect of the instruction's rule, whose next pc is the resolved
immediate away for a taken branch and 4 away for all else. -/
theorem pcMovesByFourOrByTheBranchImmediate : Obligations.PcMovesByFourOrByTheBranchImmediate := by
  unfold Obligations.PcMovesByFourOrByTheBranchImmediate
  intro s t d hs hf hstep ht
  rw [step_of_fetch_instr hs hf, exec_eq_settle_executeResult] at hstep
  obtain ⟨e, he⟩ := State.ok_of_settle_running hstep ht
  rw [he, State.settle_ok, Host.Outcome.next.injEq] at hstep
  rw [← hstep, State.commit_pc]
  constructor
  · intro hnot
    rw [executeResult_nextPc_of_not_taken he hnot, pcPlus4_toNat]
  · intro htaken
    obtain ⟨off, hoff, hpc⟩ := executeResult_nextPc_of_taken he htaken
    exact ⟨off, hoff, by rw [hpc, add_toWord_toNat]⟩

/-! ### Branches -/

/-- A branch, taken or not, only moves the pc. -/
theorem exec_branch {i : Instr} (h : i.format = .b) (s : State) :
    ∃ target, exec i s = .next (s.commit (pcEffect target)) := by
  cases i with
  | add | sub | and | or | addi | lw | sw => cases h
  | beq | bne => exact ⟨_, rfl⟩

/-- Settles O47: the branch commits a pc and nothing else, so the machine stays `Running` and its next step is what the
fetch at that pc finds. -/
theorem branchTargetIsCaughtAtTheNextFetch : Obligations.BranchTargetIsCaughtAtTheNextFetch := by
  unfold Obligations.BranchTargetIsCaughtAtTheNextFetch
  intro s t d hs hf hb hstep
  rw [step_of_fetch_instr hs hf] at hstep
  obtain ⟨target, hexec⟩ := exec_branch hb s
  cases hexec.symm.trans hstep
  have ht : (s.commit (pcEffect target)).status = .running := hs
  refine ⟨ht, rfl, rfl, rfl, fun hpc => ?misaligned, fun h4 hpc => ?pastEnd, fun hpc => ?atEnd⟩
  case misaligned => rw [step_running ht, fetch_misaligned _ hpc]; rfl
  case pastEnd => rw [step_running ht, fetch_past_end h4 hpc]; rfl
  case atEnd => rw [step_running ht, fetch_at_end hpc]; rfl

/-- Moving the pc to where it is changes nothing. -/
theorem State.commit_pcEffect_self (s : State) : s.commit (pcEffect s.pc) = s := rfl

theorem branchTarget_zero (pc : Word) : branchTarget pc 0#7 0#5 = pc := by
  rw [branchTarget, show toWord (branchImmediate 0#7 0#5) = 0#32 by decide, BitVec.add_zero]

/-- A state that steps to itself is where any number of steps ends. -/
theorem run_of_step_self {M : Host.Core} {s : M.State} (h : M.step s = .next s) (n : Nat) : M.run n s = .next s := by
  induction n with
  | zero => rfl
  | succ n ih => rw [Host.Core.run, h]; exact ih

/-- Settles O48: the branch is always taken, to its own address, so the step gives the same state. -/
theorem selfBranchRunsForEver : Obligations.SelfBranchRunsForEver := by
  unfold Obligations.SelfBranchRunsForEver
  intro s d r hs hf hd
  have hexec : exec (.beq r r 0#7 0#5) s = .next (s.commit (pcEffect (branchTarget s.pc 0#7 0#5))) := by
    simp [exec, execBeq]
  have hstep : step s = .next s := by
    rw [step_of_fetch_instr hs hf, hd, hexec, branchTarget_zero, State.commit_pcEffect_self]
  exact run_of_step_self (M := Sys2Proof.core) hstep

/-! ### The instruction placed by the host -/

theorem decodeTableWord_eq_some {nbits w : Nat} {i : Instr} (h : decodeTableWord nbits w = some i) :
    ∃ d, decodeLine Config.strictFunct3 (tableWordLine nbits w) = .ok d ∧ d.instr = i := by
  unfold decodeTableWord at h
  cases hd : decodeLine Config.strictFunct3 (tableWordLine nbits w) with
  | error e => simp [hd] at h
  | ok d => exact ⟨d, rfl, by simpa [hd] using h⟩

theorem State.placeLine_of_decodeLine {line : List Char} {d : Decoded} (h : decodeLine Config.strictFunct3 line = .ok d)
    (s : State) : s.placeLine line =
      { s with program := placeEntry s.program (s.pc.toNat / 4) d, pc := BitVec.ofNat 32 (4 * (s.pc.toNat / 4)),
               status := .running } := by
  simp [State.placeLine, h]

/-- Rounding a pc down to a multiple of 4 stays within 32 bits. -/
theorem roundedPc_toNat (pc : Word) : (BitVec.ofNat 32 (4 * (pc.toNat / 4))).toNat = 4 * (pc.toNat / 4) := by
  rw [BitVec.toNat_ofNat, Nat.mod_eq_of_lt]
  omega

/-- Settles O49: the fetch at the rounded pc finds the entry that was placed there. -/
theorem placedInstructionIsRunNext : Obligations.PlacedInstructionIsRunNext := by
  unfold Obligations.PlacedInstructionIsRunNext
  intro s w i h
  obtain ⟨d, hd, rfl⟩ := decodeTableWord_eq_some h
  rw [State.withFetchWord, State.placeLine_of_decodeLine hd]
  refine ⟨?runsNext, rfl, rfl, rfl, fun h4 => ?keepsPc⟩
  case runsNext => exact step_of_fetch_instr rfl (fetch_entry (roundedPc_toNat s.pc) (placeEntry_get ..))
  case keepsPc => exact BitVec.eq_of_toNat_eq ((roundedPc_toNat s.pc).trans (by omega))

/-! ### The program and the errors -/

theorem exec_program {i : Instr} {s t : State} (h : exec i s = .next t) : t.program = s.program := by
  rw [exec_eq_settle_executeResult] at h
  exact State.settle_program h

theorem step_program {s t : State} (h : step s = .next t) : t.program = s.program := by
  obtain ⟨-, ⟨-, rfl⟩ | ⟨-, rfl⟩ | ⟨-, -, rfl⟩ | ⟨-, -, -, -, -, rfl⟩ | ⟨-, e, -, -, rfl⟩⟩ := step_cases h
  case inr.inr.inr.inr => exact State.commit_program e s
  all_goals rfl

/-- A store leaves the register file as it was, whether it commits or raises an error. -/
theorem exec_sw_x {rs1 rs2 : RegIdx} {hi : BitVec 7} {lo : BitVec 5} {f3 : BitVec 3} {s t : State}
    (h : exec (.sw rs1 rs2 hi lo f3) s = .next t) : t.x = s.x := by
  cases ha : s.storeIndex rs1 lo with
  | ok a => cases (exec_sw_of_storeIndex ha rs2 hi f3).symm.trans h; rfl
  | error e => cases (exec_sw_of_storeIndex_error ha rs2 hi f3).symm.trans h; rfl

/-- Settles O39: settling a result never writes the program, which is all that a fetch reads beside the pc; the opcode of
a fence has no format. -/
theorem programIsNeverChanged : Obligations.ProgramIsNeverChanged := by
  unfold Obligations.ProgramIsNeverChanged
  refine ⟨fun i s t => exec_program, fun s t => step_program,
    fun rs1 rs2 hi lo f3 s t h => ⟨exec_sw_x h, exec_program h⟩,
    fun s t rs1 rs2 hi lo f3 pc h => by rw [exec_program h], fun strict w hop => ?fence⟩
  case fence =>
    have hop : opcodeOf w = 0b0001111#7 := hop
    rw [← hop]
    exact decodeWord_of_formatOf_none (by rw [hop]; rfl) strict

/-- The names of the errors in the order of their codes. 60_exceptions.md R109. -/
def errorNames : List ErrorName :=
  [.malformedEncoding, .unsupportedOpcode, .unsupportedFunct, .outOfBounds, .pcMisaligned, .pcOutOfRange]

theorem errorNames_errorCode (a : ErrorName) : errorNames[errorCode a - 1]? = some a := by
  cases a <;> rfl

/-- Settles O56: the code is the place of the name in the list, and an instruction that ends a run has raised
`OutOfBounds`. -/
theorem errorCodesAreTheListedOnes : Obligations.ErrorCodesAreTheListedOnes := by
  unfold Obligations.ErrorCodesAreTheListedOnes
  refine ⟨rfl, fun a b h => ?distinct, fun i s t hs hexec hne => ?raised⟩
  case distinct =>
    have ha := errorNames_errorCode a
    rw [h, errorNames_errorCode] at ha
    exact (Option.some.inj ha).symm
  case raised =>
    rcases exec_cases i s with ⟨e, -, hn⟩ | ⟨a, -, -, hn⟩ <;> cases hn.symm.trans hexec
    · exact absurd ((State.commit_status e s).trans hs) hne
    · rfl

end Sys2Proof.Machine

/-! PROOFS. Reset and load: the text is split into lines, and a load decodes every line, names the first that fails or
refuses the text (spec/70_reset_and_hazards.md sections 1 and 2). -/
namespace Sys2Proof.Machine

/-! ### Reset -/

/-- Settles O50: the zeros are those of the reset record, and the empty text has no line to load. -/
theorem resetIsZeroFilled : Obligations.ResetIsZeroFilled := by
  unfold Obligations.ResetIsZeroFilled
  exact ⟨State.reset_reg, State.reset_memRead, rfl, rfl, rfl, fun strict => rfl⟩

/-! ### The lines of a text -/

theorem lf_notMem_of_mem_splitLines {text l : List Char} (h : l ∈ splitLines text) : '\n' ∉ l := by
  induction text generalizing l with
  | nil => simp_all [splitLines]
  | cons c cs ih =>
    by_cases hc : c = '\n'
    · subst hc
      rw [splitLines_lf, List.mem_cons] at h
      rcases h with rfl | h
      · simp
      · exact ih h
    · obtain ⟨m, ms, htail, hcons⟩ := splitLines_char hc cs
      rw [htail] at ih
      rw [hcons, List.mem_cons] at h
      rcases h with rfl | h
      · simp [Ne.symm hc, ih List.mem_cons_self]
      · exact ih (List.mem_cons_of_mem m h)

theorem intercalate_splitLines (text : List Char) : List.intercalate ['\n'] (splitLines text) = text := by
  induction text with
  | nil => rfl
  | cons c cs ih =>
    by_cases hc : c = '\n'
    · subst hc
      rw [splitLines_lf, List.intercalate_cons_of_ne_nil (splitLines_ne_nil cs), ih]
      rfl
    · obtain ⟨l, ls, htail, hcons⟩ := splitLines_char hc cs
      rw [htail] at ih
      rw [hcons, ← ih]
      cases ls <;> simp

/-- Settles O51: both facts about the split are by induction on the text; a line is blank exactly when it is empty. -/
theorem textIsSplitAtLineFeeds : Obligations.TextIsSplitAtLineFeeds := by
  unfold Obligations.TextIsSplitAtLineFeeds
  refine fun text => ⟨fun l => lf_notMem_of_mem_splitLines, intercalate_splitLines text, ?_⟩
  exact List.filter_congr fun l _ => by cases l <;> rfl

/-! ### The outcomes of a load -/

/-- Everything a load can answer: the refusal of a text that is too long, the decoded program, and the failure of the
first line that does not decode. -/
theorem loadText_cases (strict : Bool) (text : List Char) :
    (Config.maxProgram < (programLines text).length ∧ loadText strict text = .refused .programTooLong) ∨
    ((programLines text).length ≤ Config.maxProgram ∧
      ∃ p, List.Forall₂ (fun l d => decodeLine strict l = .ok d) (programLines text) p ∧
        loadText strict text = .next { State.reset with program := p }) ∨
    ((programLines text).length ≤ Config.maxProgram ∧
      ∃ good bad rest e, programLines text = good ++ bad :: rest ∧ (∀ l ∈ good, ∃ d, decodeLine strict l = .ok d) ∧
        decodeLine strict bad = .error e ∧
        loadText strict text = .next { State.reset with status := .loadFailed e good.length bad }) := by
  unfold loadText
  by_cases hlen : Config.maxProgram < (programLines text).length
  · exact .inl ⟨hlen, if_pos hlen⟩
  · rw [if_neg hlen]
    rcases decodeLines_cases strict (programLines text) 0 with ⟨p, hp, hall⟩ | ⟨good, bad, rest, e, hl, hgood, hbad, he⟩
    · exact .inr (.inl ⟨not_lt.mp hlen, p, hall, by rw [hp]⟩)
    · exact .inr (.inr ⟨not_lt.mp hlen, good, bad, rest, e, hl, hgood, hbad, by rw [he, Nat.zero_add]⟩)

/-- Related lists are related entry by entry. -/
theorem forall₂_getElem? {α β : Type} {R : α → β → Prop} {as : List α} {bs : List β} (h : List.Forall₂ R as bs) {k : Nat}
    {a : α} {b : β} (ha : as[k]? = some a) (hb : bs[k]? = some b) : R a b := by
  obtain ⟨hka, rfl⟩ := List.getElem?_eq_some_iff.mp ha
  obtain ⟨hkb, rfl⟩ := List.getElem?_eq_some_iff.mp hb
  exact h.get hka hkb

/-- Settles O52: the bound decides the refusal, and below it the decoding of the lines decides the rest; the lines before
the failing one all decode. -/
theorem loadDecodesEveryLineOrNamesTheFirstBadOne : Obligations.LoadDecodesEveryLineOrNamesTheFirstBadOne := by
  unfold Obligations.LoadDecodesEveryLineOrNamesTheFirstBadOne
  refine ⟨fun strict text hlong => ?refused, fun strict text hshort => ?loaded⟩
  case refused =>
    rcases loadText_cases strict text with ⟨-, h⟩ | ⟨hlen, -⟩ | ⟨hlen, -⟩
    · exact h
    all_goals exact absurd hlong (not_lt.mpr hlen)
  case loaded =>
    rcases loadText_cases strict text with ⟨hlen, -⟩ | ⟨-, p, hall, h⟩ | ⟨-, good, bad, rest, e, hl, hgood, hbad, h⟩
    · exact absurd hlen (not_lt.mpr hshort)
    · exact .inl ⟨p, h, hall.length_eq.symm, fun k l d hk hd => forall₂_getElem? hall hk hd⟩
    · refine .inr ⟨good.length, bad, e, h, by simp [hl], hbad, fun j m hj hm => hgood m ?_⟩
      rw [hl, List.getElem?_append_left hj] at hm
      exact List.mem_of_getElem? hm

/-- Settles O54: a loaded program is as long as its lines and each entry keeps its line's word; a failed load leaves the
reset values and the line that fails. -/
theorem loadMeetsTheInvariant : Obligations.LoadMeetsTheInvariant := by
  unfold Obligations.LoadMeetsTheInvariant
  intro strict text s hload
  have hreset : Inv strict State.reset := resetMeetsTheInvariant strict
  rcases loadText_cases strict text with ⟨-, h⟩ | ⟨hlen, p, hall, h⟩ | ⟨-, good, bad, rest, e, -, -, hbad, h⟩ <;>
    cases h.symm.trans hload
  · refine ⟨hreset.memory, hall.length_eq ▸ hlen, fun d hd => ?_, hreset.even, trivial⟩
    obtain ⟨k, hk, rfl⟩ := List.getElem_of_mem hd
    obtain ⟨-, hdecoded⟩ := decodeLine_ok (hall.get (hall.length_eq.symm ▸ hk) hk)
    exact hdecoded
  · exact hreset.with_status _ ⟨hbad, rfl⟩

end Sys2Proof.Machine

/-! PROOFS. The program line and the units that read its word: the line check, the decoder's ports and the control vector
(spec/30_encoding.md sections 1 and 3, spec/40_control_datapath.md section 1). -/
namespace Sys2Proof.Machine

/-! ### The line check -/

/-- A line that passes the check gives a word, whose bits are the characters of the line. -/
theorem exists_wordOfLine {s : List Char} (hlen : s.length = 32) (hbin : ∀ c ∈ s, c = '0' ∨ c = '1') :
    ∃ w, wordOfLine s = some w ∧ ∀ p < 32, (w.getLsbD (31 - p) = true ↔ s[p]? = some '1') := by
  refine ⟨BitVec.ofNat 32 (binaryValue s), ?_, fun p hp => ?_⟩
  · rw [wordOfLine, if_pos ⟨hlen, by simpa using hbin⟩]
  · obtain ⟨-, hbits⟩ := binaryValue_bits s hbin
    have hp' : p < s.length := by omega
    rw [List.getElem?_eq_getElem hp', Option.some.injEq, ← hbits p hp', hlen, BitVec.getLsbD_ofNat,
      decide_eq_true (show 31 - p < 32 by omega), Bool.true_and]

theorem wordOfLine_eq_none_iff (s : List Char) :
    wordOfLine s = none ↔ ¬ (s.length = 32 ∧ ∀ c ∈ s, c = '0' ∨ c = '1') := by
  simp [wordOfLine]

/-- Words that have the same bits at 31 - p for every character place `p` are equal. -/
theorem word_eq_of_bits {v w : Word} (h : ∀ p < 32, (v.getLsbD (31 - p) = true ↔ w.getLsbD (31 - p) = true)) :
    v = w := by
  refine BitVec.eq_of_getLsbD_eq fun k hk => Bool.eq_iff_iff.mpr ?_
  have hbit := h (31 - k) (by omega)
  rwa [show 31 - (31 - k) = k by omega] at hbit

/-- A line gives a word exactly when it passes the check and its characters are the bits of the word. -/
theorem wordOfLine_eq_some_iff (s : List Char) (w : Word) : wordOfLine s = some w ↔
    s.length = 32 ∧ (∀ c ∈ s, c = '0' ∨ c = '1') ∧ ∀ p, p < 32 → (w.getLsbD (31 - p) = true ↔ s[p]? = some '1') := by
  constructor
  · intro h
    have hcheck := mt (wordOfLine_eq_none_iff s).mpr (by simp [h])
    obtain ⟨hlen, hbin⟩ := not_not.mp hcheck
    obtain ⟨v, hv, hbits⟩ := exists_wordOfLine hlen hbin
    cases hv.symm.trans h
    exact ⟨hlen, hbin, hbits⟩
  · rintro ⟨hlen, hbin, hbits⟩
    obtain ⟨v, hv, hvbits⟩ := exists_wordOfLine hlen hbin
    rw [hv, word_eq_of_bits fun p hp => (hvbits p hp).trans (hbits p hp).symm]

theorem wordOfLine_lineOfWord (w : Word) : wordOfLine (lineOfWord w) = some w := by
  rw [wordOfLine_eq_some_iff]
  refine ⟨by simp [lineOfWord], fun c hc => ?_, fun p hp => ?_⟩
  · obtain ⟨p, -, rfl⟩ := List.mem_map.mp hc
    split
    · exact .inr rfl
    · exact .inl rfl
  · simp [lineOfWord, hp, BitVec.getMsbD]

/-- Settles O10: the check's value has character `p` as its bit `31 - p`, and a word is known by its bits. -/
theorem lineCharacterIsWordBit : Obligations.LineCharacterIsWordBit := by
  unfold Obligations.LineCharacterIsWordBit
  exact ⟨wordOfLine_eq_some_iff, wordOfLine_lineOfWord⟩

/-! ### Decoding a line -/

theorem decodeLine_of_wordOfLine_none {s : List Char} (h : wordOfLine s = none) (strict : Bool) :
    decodeLine strict s = .error .malformedEncoding := by
  simp [decodeLine, h]

theorem decodeLine_of_decodeWord_ok {strict : Bool} {s : List Char} {w : Word} {i : Instr} (hw : wordOfLine s = some w)
    (hd : decodeWord strict w = .ok i) : decodeLine strict s = .ok { instr := i, raw := w } := by
  simp [decodeLine, hw, hd]

theorem decodeLine_of_decodeWord_error {strict : Bool} {s : List Char} {w : Word} {e : DecodeError}
    (hw : wordOfLine s = some w) (hd : decodeWord strict w = .error e) : decodeLine strict s = .error e := by
  simp [decodeLine, hw, hd]

/-- `MalformedEncoding` is the line check's error alone: no word gives it. -/
theorem decodeLine_eq_malformedEncoding_iff (strict : Bool) (s : List Char) :
    decodeLine strict s = .error .malformedEncoding ↔ wordOfLine s = none := by
  refine ⟨fun h => ?_, fun h => decodeLine_of_wordOfLine_none h strict⟩
  rcases decodeLine_error h with ⟨hw, -⟩ | ⟨w, -, hd⟩
  · exact hw
  · rcases decodeWord_error hd with ⟨-, he⟩ | ⟨fmt, -, he⟩ <;> cases he

/-- Settles O9: the line check's error is no error of a word, and a line of a word has the word's outcome. -/
theorem lineIsCheckedBeforeOpcodeAndFunct : Obligations.LineIsCheckedBeforeOpcodeAndFunct := by
  unfold Obligations.LineIsCheckedBeforeOpcodeAndFunct
  exact ⟨fun strict s => (decodeLine_eq_malformedEncoding_iff strict s).trans (wordOfLine_eq_none_iff s),
    fun strict s w i => decodeLine_of_decodeWord_ok, fun strict s w e => decodeLine_of_decodeWord_error⟩

/-- Settles O11: each number is a closed term, and the decoder evaluates it. -/
theorem sampleWordsDecode : Obligations.SampleWordsDecode := by
  unfold Obligations.SampleWordsDecode
  decide

/-! ### The decoder's ports -/

/-- Every field of a word whose opcode has a format is driven as the format has it. -/
theorem fieldPorts_of_formatOf_some {w : Word} {fmt : Format} (h : formatOf (opcodeOf w) = some fmt) :
    fieldPorts w = DecoderPorts.driveFields fmt w
      { DecoderPorts.undriven with raw := some w, opcode := some (opcodeOf w) } := by
  simp [fieldPorts, h]

theorem fieldPorts_of_formatOf_none {w : Word} (h : formatOf (opcodeOf w) = none) :
    fieldPorts w = { DecoderPorts.undriven with raw := some w, opcode := some (opcodeOf w) } := by
  simp [fieldPorts, h]

/-- Whether a word decodes decides only `valid`, `err` and `mnemonic`: the other ports are the word's fields. -/
theorem decoderPorts_of_wordOfLine_some {line : List Char} {w : Word} (h : wordOfLine line = some w) (strict : Bool) :
    ∃ valid err mnemonic, decoderPorts strict line =
      { fieldPorts w with valid := valid, err := err, mnemonic := mnemonic } := by
  rcases decoderPorts_cases strict line with ⟨hw, -⟩ | ⟨w', e, hw, -, hp⟩ | ⟨w', i, hw, -, hp⟩ <;> cases h.symm.trans hw
  · exact ⟨(fieldPorts w).valid, some e, (fieldPorts w).mnemonic, hp⟩
  · exact ⟨true, (fieldPorts w).err, some i.mnemonic, hp⟩

/-- The ports that say whether a word decodes are not driven by its fields. -/
theorem fieldPorts_outcome (w : Word) :
    (fieldPorts w).valid = false ∧ (fieldPorts w).err = none ∧ (fieldPorts w).mnemonic = none := by
  cases hf : formatOf (opcodeOf w) with
  | none => rw [fieldPorts_of_formatOf_none hf]; exact ⟨rfl, rfl, rfl⟩
  | some fmt => rw [fieldPorts_of_formatOf_some hf]; exact ⟨rfl, rfl, rfl⟩

/-- Settles O12: the word's fields drive their ports by its format, the outcome of decoding drives `valid`, `err` and
`mnemonic`, and a line of no word drives `err` alone. -/
theorem decoderPortsDriveTheFormatsFields : Obligations.DecoderPortsDriveTheFormatsFields := by
  unfold Obligations.DecoderPortsDriveTheFormatsFields
  refine ⟨fun strict line w hw => ?fields, fun strict line w i hw hd => ?decodes, fun strict line e he => ?fails,
    fun strict line hw => ?noWord⟩
  case fields =>
    obtain ⟨valid, err, mnemonic, hp⟩ := decoderPorts_of_wordOfLine_some hw strict
    rw [hp]
    cases hf : formatOf (opcodeOf w) with
    | none =>
      rw [fieldPorts_of_formatOf_none hf]
      exact ⟨rfl, rfl, rfl, rfl, rfl, rfl, rfl, rfl, rfl, rfl, rfl⟩
    | some fmt =>
      rw [fieldPorts_of_formatOf_some hf]
      cases fmt <;> exact ⟨rfl, rfl, rfl, rfl, rfl, rfl, rfl, rfl, rfl, rfl, rfl⟩
  case decodes =>
    obtain ⟨-, herr, -⟩ := fieldPorts_outcome w
    rcases decoderPorts_cases strict line with ⟨hw', -⟩ | ⟨v, e, hw', hd', -⟩ | ⟨v, j, hw', hd', hp⟩ <;>
      cases hw.symm.trans hw' <;> cases hd.symm.trans hd'
    rw [hp]
    exact ⟨rfl, herr, rfl, (fieldPorts_fmt w).trans (formatOf_opcodeOf hd)⟩
  case fails =>
    rcases decoderPorts_cases strict line with ⟨hw, hp⟩ | ⟨w, e', hw, hd, hp⟩ | ⟨w, i, hw, hd, -⟩
    · cases (decodeLine_of_wordOfLine_none hw strict).symm.trans he
      rw [hp]
      exact ⟨rfl, rfl, rfl⟩
    · cases (decodeLine_of_decodeWord_error hw hd).symm.trans he
      obtain ⟨hvalid, -, hmnemonic⟩ := fieldPorts_outcome w
      rw [hp]
      exact ⟨hvalid, rfl, hmnemonic⟩
    · cases (decodeLine_of_decodeWord_ok hw hd).symm.trans he
  case noWord =>
    rcases decoderPorts_cases strict line with ⟨-, hp⟩ | ⟨w, e, hw', -, -⟩ | ⟨w, i, hw', -, -⟩
    · rw [hp]
      exact ⟨rfl, rfl, rfl, rfl, rfl, rfl, rfl, rfl, rfl, rfl, rfl⟩
    all_goals cases hw.symm.trans hw'

/-! ### The control vector of a word -/

/-- A word has a control vector exactly when it decodes, and it is the one of its instruction. -/
theorem controlOfWord_eq_some_iff (strict : Bool) (w : Word) (c : ControlVector) :
    controlOfWord strict w = some c ↔ ∃ i, decodeWord strict w = .ok i ∧ controlVector i = c := by
  cases hd : decodeWord strict w <;> simp [controlOfWord, hd]

theorem controlOfWord_eq_none_iff (strict : Bool) (w : Word) :
    controlOfWord strict w = none ↔ ∃ e, decodeWord strict w = .error e := by
  cases hd : decodeWord strict w <;> simp [controlOfWord, hd]

/-- Settles O20: the word has its instruction's opcode, and each instruction has the vector of its opcode. -/
theorem controlVectorDependsOnOpcodeOnly : Obligations.ControlVectorDependsOnOpcodeOnly := by
  unfold Obligations.ControlVectorDependsOnOpcodeOnly
  refine ⟨fun strict w c h => ?vector, controlOfWord_eq_none_iff⟩
  case vector =>
    obtain ⟨i, hd, rfl⟩ := (controlOfWord_eq_some_iff strict w c).mp h
    rw [opcodeOf_eq_opcode hd]
    cases i <;> rfl

end Sys2Proof.Machine

/-! PROOFS. The memory and the index of a load or store: reads after writes, the canonical form, and which bits of the
offset take part (spec/20_memory.md). -/
namespace Sys2Proof.Machine

/-! ### The canonical form decides the contents -/

theorem Memory.read_cons_self (k : Nat) (u : Word) (rest : Memory) : Memory.read ((k, u) :: rest) k = u := if_pos rfl

theorem Memory.read_cons_ne {k a : Nat} (h : k ≠ a) (u : Word) (rest : Memory) :
    Memory.read ((k, u) :: rest) a = rest.read a := if_neg h

/-- Below the first listed index everything reads 0. -/
theorem Memory.read_of_lt {m : Memory} {lo a : Nat} (h : Memory.wfFrom lo m = true) (ha : a < lo) : m.read a = 0#32 := by
  induction m generalizing lo with
  | nil => rfl
  | cons c rest ih =>
    obtain ⟨k, u⟩ := c
    obtain ⟨hlo, -, -, hrest⟩ := (Memory.wfFrom_cons ..).mp h
    rw [Memory.read_cons_ne (by omega)]
    exact ih hrest (by omega)

/-- The first index of a memory is listed in every memory that reads alike, so no such memory starts later. -/
theorem Memory.head_le {lo k k' : Nat} {u u' : Word} {rest rest' : Memory}
    (h : Memory.wfFrom lo ((k, u) :: rest) = true) (h' : Memory.wfFrom lo ((k', u') :: rest') = true)
    (hread : ∀ a, Memory.read ((k, u) :: rest) a = Memory.read ((k', u') :: rest') a) : k' ≤ k := by
  obtain ⟨-, -, hu, -⟩ := (Memory.wfFrom_cons ..).mp h
  obtain ⟨-, hk', hu', hrest'⟩ := (Memory.wfFrom_cons ..).mp h'
  by_contra hlt
  have hzero : Memory.read ((k', u') :: rest') k = 0#32 :=
    Memory.read_of_lt ((Memory.wfFrom_cons ..).mpr ⟨le_refl k', hk', hu', hrest'⟩) (not_le.mp hlt)
  exact hu (by rw [← Memory.read_cons_self k u rest, hread, hzero])

/-- In canonical form, memories that read alike are equal. -/
theorem Memory.eq_of_read_eq {m m' : Memory} {lo : Nat} (h : Memory.wfFrom lo m = true) (h' : Memory.wfFrom lo m' = true)
    (hread : ∀ a, m.read a = m'.read a) : m = m' := by
  induction m generalizing lo m' with
  | nil =>
    cases m' with
    | nil => rfl
    | cons c' rest' =>
      obtain ⟨k', u'⟩ := c'
      obtain ⟨-, -, hu', -⟩ := (Memory.wfFrom_cons ..).mp h'
      exact absurd ((Memory.read_cons_self k' u' rest').symm.trans (hread k').symm) hu'
  | cons c rest ih =>
    obtain ⟨k, u⟩ := c
    obtain ⟨-, -, hu, hrest⟩ := (Memory.wfFrom_cons ..).mp h
    cases m' with
    | nil => exact absurd ((Memory.read_cons_self k u rest).symm.trans (hread k)) hu
    | cons c' rest' =>
      obtain ⟨k', u'⟩ := c'
      obtain rfl : k' = k := le_antisymm (Memory.head_le h h' hread) (Memory.head_le h' h fun a => (hread a).symm)
      obtain ⟨-, -, -, hrest'⟩ := (Memory.wfFrom_cons ..).mp h'
      obtain rfl : u = u' := by
        rw [← Memory.read_cons_self k' u rest, hread, Memory.read_cons_self]
      have htail : ∀ a, Memory.read rest a = Memory.read rest' a := by
        intro a
        by_cases ha : k' = a
        · rw [Memory.read_of_lt hrest (by omega), Memory.read_of_lt hrest' (by omega)]
        · rw [← Memory.read_cons_ne ha u rest, hread, Memory.read_cons_ne ha]
      rw [ih hrest hrest' htail]

/-- Settles O35: a write is one equation of the reads, keeps the canonical form inside 0..255, and the form is decided by
the reads. -/
theorem memoryReadsTheLastWrite : Obligations.MemoryReadsTheLastWrite := by
  unfold Obligations.MemoryReadsTheLastWrite
  refine ⟨fun m a v => ?written, fun m a b v hb => ?other, State.reset_memRead,
    fun m a v hm ha => Memory.wf_write hm ha v, fun m m' => Memory.eq_of_read_eq⟩
  case written => rw [Memory.read_write, if_pos rfl]
  case other => rw [Memory.read_write, if_neg hb]

/-! ### The index and the two low bits of the offset -/

/-- A field without its two low bits is the quotient by 4. -/
theorem toNat_div_four_of_extractLsb'_eq {n : Nat} {x y : BitVec (n + 2)}
    (h : x.extractLsb' 2 n = y.extractLsb' 2 n) : x.toNat / 4 = y.toNat / 4 := by
  have hdiv : ∀ z : BitVec (n + 2), (z.extractLsb' 2 n).toNat = z.toNat / 4 := by
    intro z
    rw [BitVec.extractLsb'_toNat, Nat.shiftRight_eq_div_pow, Nat.mod_eq_of_lt]
    have hz := z.isLt
    rw [Nat.pow_add] at hz
    omega
  rw [← hdiv, h, hdiv]

theorem effIndex_congr {off off' : Nat} (h : off / 4 = off' / 4) (base : Word) :
    effIndex base off = effIndex base off' := by
  rw [effIndex, effIndex, h]

/-- Settles O37: the index, and with it all that a load or store does, takes the offset only as its quotient by 4. -/
theorem lowOffsetBitsAreDiscarded : Obligations.LowOffsetBitsAreDiscarded := by
  unfold Obligations.LowOffsetBitsAreDiscarded
  refine ⟨fun rd rs1 imm imm' f3 s h => ?lw, fun rs1 rs2 hi lo lo' f3 s h => ?sw, fun base off => ?next⟩
  case lw =>
    have hindex : s.loadIndex rs1 imm = s.loadIndex rs1 imm' := by
      simp only [State.loadIndex, unsignedImmediate, effIndex_congr (toNat_div_four_of_extractLsb'_eq h)]
    simp only [exec, execLw, hindex]
  case sw =>
    have hindex : s.storeIndex rs1 lo = s.storeIndex rs1 lo' := by
      simp only [State.storeIndex, unsignedImmediate, effIndex_congr (toNat_div_four_of_extractLsb'_eq h)]
    simp only [exec, execSw, hindex]
  case next =>
    rw [effIndex, effIndex]
    omega

/-! ### The index on the 32-bit adder -/

/-- A word as a signed number, by its unsigned value. -/
theorem signed32_cases (v : Word) :
    (v.toNat < 2 ^ 31 ∧ signed32 v = v.toNat) ∨ (2 ^ 31 ≤ v.toNat ∧ signed32 v = (v.toNat : Int) - 2 ^ 32) := by
  rw [signed32, BitVec.toInt_eq_toNat_cond]
  split <;> omega

theorem adderIndexOk_iff (t : Word) : adderIndexOk t = true ↔ t.toNat ≤ 255 := by
  have ht := t.isLt
  rw [adderIndexOk, Bool.and_eq_true, decide_eq_true_eq, decide_eq_true_eq]
  rcases signed32_cases t with ⟨_, hv⟩ | ⟨_, hv⟩ <;> rw [hv] <;> omega

/-- The adder's sum lies in 0..255 exactly when the index does, and is then the index: a sum that wraps comes from an
index of at least `2^31`, and wraps to a word of at least `2^31`. -/
theorem adderSum_iff (base : Word) {off : Nat} (hoff : off ≤ 4095) (n : Nat) (hn : n ≤ 255) :
    (base + BitVec.ofNat 32 (off / 4)).toNat = n ↔ effIndex base off = n := by
  have hbase := base.isLt
  rw [effIndex, BitVec.toNat_add, BitVec.toNat_ofNat]
  rcases signed32_cases base with ⟨_, hv⟩ | ⟨_, hv⟩ <;> rw [hv] <;> omega

/-- Settles O22: both the sum's test and the index's say that they are one number of 0..255. -/
theorem adderIndexAgreesWithMathematicalIndex : Obligations.AdderIndexAgreesWithMathematicalIndex := by
  unfold Obligations.AdderIndexAgreesWithMathematicalIndex
  intro base off hoff
  have hsum : 0 ≤ effIndex base off ∧ effIndex base off ≤ 255 →
      ((base + BitVec.ofNat 32 (off / 4)).toNat : Int) = effIndex base off := by
    rintro ⟨h0, h255⟩
    obtain ⟨n, hn⟩ := Int.eq_ofNat_of_zero_le h0
    rw [(adderSum_iff base hoff n (by omega)).mpr hn, hn]
  refine ⟨?_, hsum⟩
  rw [adderIndexOk_iff]
  constructor
  · intro h
    have := (adderSum_iff base hoff _ h).mp rfl
    omega
  · intro h
    have := hsum h
    omega

/-! ### Which instructions touch the memory -/

/-- Changing the memory before a commit that does not write it changes it after. -/
theorem State.commit_with_mem {e : Effect} (h : e.memWrite = none) (s : State) (m : Memory) :
    State.commit e { s with mem := m } = { s.commit e with mem := m } := by
  rcases e with ⟨_ | ⟨_, _⟩, _ | ⟨_, _⟩, _⟩ <;> cases h <;> rfl

/-- The rule of an instruction other than `lw` does not read the memory. -/
theorem executeResult_with_mem {i : Instr} (h : i.mnemonic ≠ .lw) (s : State) (m : Memory) :
    executeResult i { s with mem := m } = executeResult i s := by
  cases i with
  | lw => exact absurd rfl h
  | add | sub | and | or | addi | sw | beq | bne => rfl

/-- The rule of an instruction other than `sw` does not write the memory. -/
theorem executeResult_memWrite_none {i : Instr} {s : State} {e : Effect} (hi : i.mnemonic ≠ .sw)
    (h : executeResult i s = .ok e) : e.memWrite = none := by
  rcases executeResult_memWrite_cases h with ⟨-, hw⟩ | ⟨-, -, -, hsw, -⟩
  · exact hw
  · exact absurd hsw hi

theorem exec_mem {i : Instr} {s t : State} (hi : i.mnemonic ≠ .sw) (h : exec i s = .next t) : t.mem = s.mem := by
  cases hr : executeResult i s with
  | ok e =>
    cases (exec_of_executeResult_ok hr).symm.trans h
    rw [State.commit_mem, executeResult_memWrite_none hi hr]
  | error err =>
    cases (exec_of_executeResult_error hr).symm.trans h
    rfl

theorem exec_with_mem {i : Instr} {s t : State} (hlw : i.mnemonic ≠ .lw) (hsw : i.mnemonic ≠ .sw)
    (h : exec i s = .next t) (m : Memory) : exec i { s with mem := m } = .next { t with mem := m } := by
  rw [exec_eq_settle_executeResult, executeResult_with_mem hlw]
  cases hr : executeResult i s with
  | ok e =>
    cases (exec_of_executeResult_ok hr).symm.trans h
    rw [State.settle_ok, State.commit_with_mem (executeResult_memWrite_none hsw hr)]
  | error err =>
    cases (exec_of_executeResult_error hr).symm.trans h
    rfl

/-- Settles O38: the rule of an instruction reads the memory only for `lw` and writes it only for `sw`; the index of a
store does not depend on the memory. -/
theorem onlyLwReadsAndOnlySwWritesMemory : Obligations.OnlyLwReadsAndOnlySwWritesMemory := by
  unfold Obligations.OnlyLwReadsAndOnlySwWritesMemory
  refine ⟨fun i s t => exec_mem, fun i s t m hlw hsw h => exec_with_mem hlw hsw h m,
    fun rs1 rs2 hi lo f3 s t m e he h => ?outside, fun rs1 rs2 hi lo f3 s t m a ha h => ?inside⟩
  case outside =>
    cases (exec_sw_of_storeIndex_error he rs2 hi f3).symm.trans h
    have he' : State.storeIndex { s with mem := m } rs1 lo = .error e := he
    exact ⟨rfl, exec_sw_of_storeIndex_error he' rs2 hi f3⟩
  case inside =>
    cases (exec_sw_of_storeIndex ha rs2 hi f3).symm.trans h
    have ha' : State.storeIndex { s with mem := m } rs1 lo = .ok a := ha
    obtain ⟨hword, hother, -⟩ := storeResult_commit_memEffect a (s.reg rs2) s
    obtain ⟨hword', hother', -⟩ := storeResult_commit_memEffect a (s.reg rs2) { s with mem := m }
    exact ⟨hword, hother, _, exec_sw_of_storeIndex ha' rs2 hi f3, rfl, hword', hother'⟩

end Sys2Proof.Machine

/-! PROOFS. The branch immediate and the printed forms: the reassembled field is the sign-extended one, and a number's
digits read back as the number (spec/30_encoding.md sections 4 and 6). -/
namespace Sys2Proof.Machine

/-! ### The branch immediate, as numbers -/

/-- Joining two fields shifts the first past the second. -/
theorem toNat_append_eq_add {n m : Nat} (x : BitVec n) (y : BitVec m) : (x ++ y).toNat = x.toNat * 2 ^ m + y.toNat := by
  rw [BitVec.toNat_append, ← Nat.shiftLeft_add_eq_or_of_lt y.isLt, Nat.shiftLeft_eq]

theorem extractLsb'_toNat_div {n : Nat} (x : BitVec n) (k m : Nat) :
    (x.extractLsb' k m).toNat = x.toNat / 2 ^ k % 2 ^ m := by
  rw [BitVec.extractLsb'_toNat, Nat.shiftRight_eq_div_pow]

/-- The reassembled bits as a sum: `imm_lo`'s lowest bit is the highest, then the six low bits of `imm_hi`, then the four
high bits of `imm_lo`, then 0. -/
theorem branchField_toNat (immHi : BitVec 7) (immLo : BitVec 5) : (branchField immHi immLo).toNat =
    immLo.toNat % 2 * 2048 + immHi.toNat % 64 * 32 + immLo.toNat / 2 * 2 := by
  have hhi := immHi.isLt
  have hlo := immLo.isLt
  simp only [branchField, BitVec.setWidth_eq, toNat_append_eq_add, extractLsb'_toNat_div, BitVec.toNat_ofNat]
  omega

/-- The leading bit of `imm_hi` is its quotient by 64. -/
theorem immHi_msb_iff (immHi : BitVec 7) : immHi.msb = true ↔ immHi.toNat / 64 = 1 := by
  have hhi := immHi.isLt
  rw [BitVec.msb_eq_decide, decide_eq_true_eq]
  omega

theorem branchImmediate_eq (immHi : BitVec 7) (immLo : BitVec 5) : branchImmediate immHi immLo =
    (immLo.toNat % 2 * 2048 + immHi.toNat % 64 * 32 + immLo.toNat / 2 * 2 : Nat) - (immHi.toNat / 64 * 4096 : Nat) := by
  have hhi := immHi.isLt
  simp only [branchImmediate, branchField_toNat, immHi_msb_iff]
  split <;> omega

/-- A field of one bit is 0 or −1 as a signed number. -/
theorem toInt_one_bit (b : BitVec 1) : b.toInt = -(b.toNat : Int) := by
  revert b
  decide

theorem sext13_eq (immHi : BitVec 7) (immLo : BitVec 5) : sext13 immHi immLo =
    (immLo.toNat % 2 * 2048 + immHi.toNat % 64 * 32 + immLo.toNat / 2 * 2 : Nat) - (immHi.toNat / 64 * 4096 : Nat) := by
  have hhi := immHi.isLt
  have hlo := immLo.isLt
  simp only [sext13, BitVec.toInt_append, toInt_one_bit, extractLsb'_toNat_div, BitVec.toNat_ofNat]
  simp
  omega

/-- The fields of an even number of the range: its bits at their places. -/
theorem exists_branchImmediate {v : Int} (heven : v % 2 = 0) (hlo : -4096 ≤ v) (hhi : v ≤ 4094) :
    ∃ immHi immLo, branchImmediate immHi immLo = v := by
  obtain ⟨sign, b, c, d, hsign, hb, hc, hd, rfl⟩ : ∃ sign b c d : Nat, sign < 2 ∧ b < 2 ∧ c < 64 ∧ d < 16 ∧
      v = (b * 2048 + c * 32 + d * 2 : Nat) - (sign * 4096 : Nat) :=
    ⟨if v < 0 then 1 else 0, (v % 4096).toNat / 2048, (v % 4096).toNat / 32 % 64, (v % 4096).toNat / 2 % 16,
      by split <;> omega, by omega, by omega, by omega, by split <;> omega⟩
  refine ⟨BitVec.ofNat 7 (sign * 64 + c), BitVec.ofNat 5 (d * 2 + b), ?_⟩
  have hhigh : (BitVec.ofNat 7 (sign * 64 + c)).toNat = sign * 64 + c := Nat.mod_eq_of_lt (by omega)
  have hlow : (BitVec.ofNat 5 (d * 2 + b)).toNat = d * 2 + b := Nat.mod_eq_of_lt (by omega)
  rw [branchImmediate_eq, hhigh, hlow]
  clear heven hlo hhi
  omega

/-- Settles O16: both readings are the same sum of the fields' bits, and the bits of an even number are its fields. -/
theorem branchImmediateIsSext13 : Obligations.BranchImmediateIsSext13 := by
  unfold Obligations.BranchImmediateIsSext13
  refine ⟨fun immHi immLo => ⟨?value, branchImmediate_even immHi immLo, ?range⟩, fun v => exists_branchImmediate⟩
  case value => rw [branchImmediate_eq, sext13_eq]
  case range =>
    have hhi := immHi.isLt
    have hlo := immLo.isLt
    rw [branchImmediate_eq]
    omega

/-! ### Decimal numbers -/

/-- One step of `readDecimal`: the number read so far, and the next character. -/
def readDigit (n : Option Nat) (c : Char) : Option Nat :=
  n.bind fun k => if c.isDigit then some (10 * k + (c.toNat - '0'.toNat)) else none

theorem readDecimal_eq_foldl (s : List Char) : readDecimal s = s.foldl readDigit (some 0) := rfl

/-- The digit of `d` is a digit character and stands for the last digit of `d`. -/
theorem digitChar_reads (d : Nat) :
    (digitChar d).isDigit = true ∧ (digitChar d).toNat - '0'.toNat = d % 10 := by
  have hten : ∀ r < 10, (Char.ofNat ('0'.toNat + r)).isDigit = true ∧
      (Char.ofNat ('0'.toNat + r)).toNat - '0'.toNat = r := by decide
  exact hten (d % 10) (Nat.mod_lt d (by omega))

theorem readDigit_digitChar (k d : Nat) : readDigit (some k) (digitChar d) = some (10 * k + d % 10) := by
  obtain ⟨hdigit, hvalue⟩ := digitChar_reads d
  rw [readDigit, Option.bind_some, if_pos hdigit, hvalue]

/-- Reading the digits of `n` and then `acc` is reading `acc` after the number `n`. -/
theorem foldl_readDigit_decimalLoop {fuel n : Nat} (h : n < fuel) (acc : List Char) :
    (decimalLoop fuel n acc).foldl readDigit (some 0) = acc.foldl readDigit (some n) := by
  induction fuel generalizing n acc with
  | zero => omega
  | succ fuel ih =>
    rw [decimalLoop]
    split
    · next hn => rw [List.foldl_cons, readDigit_digitChar, Nat.mod_eq_of_lt hn, Nat.mul_zero, Nat.zero_add]
    · next hn => rw [ih (by omega), List.foldl_cons, readDigit_digitChar, Nat.div_add_mod]

theorem readDecimal_decimal (n : Nat) : readDecimal (decimal n) = some n := by
  rw [readDecimal_eq_foldl, decimal, foldl_readDigit_decimalLoop (Nat.lt_succ_self n), List.foldl_nil]

/-- The digits of a number other than 0 do not begin with `0`: the first one is the number's last non-zero quotient. -/
theorem decimalLoop_head?_ne_zero {fuel n : Nat} (h : n < fuel) (h0 : n ≠ 0) (acc : List Char) :
    (decimalLoop fuel n acc).head? ≠ some '0' := by
  induction fuel generalizing n acc with
  | zero => omega
  | succ fuel ih =>
    rw [decimalLoop]
    split
    · next hn =>
      rw [List.head?_cons, ne_eq, Option.some.injEq]
      intro hzero
      obtain ⟨-, hvalue⟩ := digitChar_reads n
      rw [hzero, Nat.mod_eq_of_lt hn, Nat.sub_self] at hvalue
      exact h0 hvalue.symm
    · next hn => exact ih (by omega) (by omega) _

theorem decimal_ne_nil (n : Nat) : decimal n ≠ [] := by
  intro h
  have hread := readDecimal_decimal n
  rw [h] at hread
  obtain rfl : 0 = n := Option.some.inj hread
  exact absurd h (by decide)

/-- Settles O13: reading undoes the loop digit by digit, and the loop ends at the first digit that is not 0. -/
theorem decimalDigitsReadBack : Obligations.DecimalDigitsReadBack := by
  unfold Obligations.DecimalDigitsReadBack
  refine ⟨fun n => ⟨readDecimal_decimal n, fun h0 => decimalLoop_head?_ne_zero (Nat.lt_succ_self n) h0 [], decimal_ne_nil n⟩,
    fun v hv => if_pos hv, fun v hv => ?nonnegative⟩
  case nonnegative => rw [signedDecimal, if_neg (not_lt.mpr hv), show v.natAbs = v.toNat by omega]

/-! ### The templates -/

/-- Settles O14: the two templates, with each mnemonic's letters written out. -/
theorem printedFormsFollowTheTemplates : Obligations.PrintedFormsFollowTheTemplates := by
  unfold Obligations.PrintedFormsFollowTheTemplates
  refine ⟨?add, ?sub, ?and, ?or, ?addi, ?lw, ?sw, ?beq, ?bne⟩
  case add | sub | and | or | beq | bne =>
    intros
    simp [disassemble, threeOperands, mnemonicText, registerText]
  case addi =>
    intros
    simp [disassemble, threeOperands, mnemonicText, registerText, simpleImmediate_eq_toInt]
  case lw | sw =>
    intros
    simp [disassemble, memoryOperand, mnemonicText, registerText, unsignedImmediate]

end Sys2Proof.Machine

/-! PROOFS. The datapath: its ALU computes the four operations, its bounds check is that of the index, and its units
together do what the instruction's own rule does (spec/40_control_datapath.md sections 2 and 5). -/
namespace Sys2Proof.Machine

/-! ### The ALU -/

theorem alu_zero (op : AluOp) (a b : Word) : (alu op a b).zero = true ↔ (alu op a b).y = 0#32 := beq_iff_eq

/-- Settles O21: each operation is the word operation of its name, and a difference is 0 exactly on equal inputs. -/
theorem aluOperationsAndZero : Obligations.AluOperationsAndZero := by
  unfold Obligations.AluOperationsAndZero
  intro a b
  refine ⟨BitVec.toNat_add a b, ?difference, fun k => BitVec.getLsbD_and, fun k => BitVec.getLsbD_or,
    fun op => alu_zero op a b, ?equal⟩
  case difference =>
    rw [alu, aluY, ← ofInt_toNat_sub, BitVec.toNat_ofInt]
    omega
  case equal => rw [alu, aluY, zeroLine_sub, decide_eq_true_eq]

/-! ### The bounds check of the datapath -/

/-- Where memory is accessed, the check on the adder's sum is the check of the index. -/
theorem datapathCheck_eq_checkIndex {c : ControlVector} (hc : c.memRead = true ∨ c.memWrite = true) (base : Word)
    {off : Nat} (hoff : off ≤ 4095) (pc : Word) :
    datapathCheck c base (BitVec.ofNat 32 (off / 4)) (base + BitVec.ofNat 32 (off / 4)) pc =
      (checkIndex (effIndex base off) pc).map fun _ => () := by
  have hindex : signed32 base + signed32 (BitVec.ofNat 32 (off / 4)) = effIndex base off := by
    have hoff' : (BitVec.ofNat 32 (off / 4)).toNat = off / 4 := Nat.mod_eq_of_lt (by omega)
    rw [effIndex]
    rcases signed32_cases (BitVec.ofNat 32 (off / 4)) with ⟨_, hv⟩ | ⟨_, hv⟩ <;> omega
  obtain ⟨hok, -⟩ := adderIndexAgreesWithMathematicalIndex base off hoff
  rw [← hindex] at hok ⊢
  rcases datapathCheck_cases c base (BitVec.ofNat 32 (off / 4)) (base + BitVec.ofNat 32 (off / 4)) pc with
    ⟨hnone | hin, h⟩ | ⟨-, hout, h⟩ <;> rw [h]
  · simp [hnone] at hc
  · rw [checkIndex_inside (hok.mp hin)]
    rfl
  · rw [checkIndex, if_neg (mt hok.mpr (by simp [hout]))]
    rfl

section
variable {c : ControlVector} (hc : c.memRead = true ∨ c.memWrite = true) {base : Word} {off : Nat} (hoff : off ≤ 4095)
  {pc : Word}
include hc hoff

theorem datapathCheck_of_checkIndex_error {err : ExecError} (h : checkIndex (effIndex base off) pc = .error err) :
    datapathCheck c base (BitVec.ofNat 32 (off / 4)) (base + BitVec.ofNat 32 (off / 4)) pc = .error err := by
  rw [datapathCheck_eq_checkIndex hc base hoff, h]
  rfl

theorem datapathCheck_of_checkIndex_ok {a : Nat} (h : checkIndex (effIndex base off) pc = .ok a) :
    datapathCheck c base (BitVec.ofNat 32 (off / 4)) (base + BitVec.ofNat 32 (off / 4)) pc = .ok () := by
  rw [datapathCheck_eq_checkIndex hc base hoff, h]
  rfl

end

/-- The index that the check accepts is the adder's sum. -/
theorem adderSum_of_checkIndex_ok {base : Word} {off : Nat} {pc : Word} {a : Nat} (hoff : off ≤ 4095)
    (h : checkIndex (effIndex base off) pc = .ok a) : (base + BitVec.ofNat 32 (off / 4)).toNat = a := by
  obtain ⟨h0, h255, ha, -⟩ := checkIndex_ok h
  exact (adderSum_iff base hoff a (by omega)).mpr (by omega)

/-! ### The units of each instruction together -/

/-- Driven inputs and a failed bounds check: the instruction's outcome is the error. -/
theorem datapath_of_check_error {i : Instr} {s : State} {b : Word} {op : AluOp} {err : ExecError}
    (hb : aluOperandB (controlVector i).aluSource (readPort2 s i.rs2) (aluImmediate i) = some b)
    (hop : aluControl (controlVector i).aluOp1 (controlVector i).aluOp0 i.funct3 i.funct7 = some op)
    (hcheck : datapathCheck (controlVector i) (s.reg i.rs1) b (aluY op (s.reg i.rs1) b) s.pc = .error err) :
    datapath i s = some (.error err) := by
  simp [datapath, hb, hop, alu, hcheck]

/-- Driven inputs and a passed bounds check: the instruction's outcome is the effect that the later units give. -/
theorem datapath_of_check_ok {i : Instr} {s : State} {b : Word} {op : AluOp} {e : Effect}
    (hb : aluOperandB (controlVector i).aluSource (readPort2 s i.rs2) (aluImmediate i) = some b)
    (hop : aluControl (controlVector i).aluOp1 (controlVector i).aluOp0 i.funct3 i.funct7 = some op)
    (hcheck : datapathCheck (controlVector i) (s.reg i.rs1) b (aluY op (s.reg i.rs1) b) s.pc = .ok ())
    (hcommit : datapathCommit (controlVector i) i (readPort2 s i.rs2) (alu op (s.reg i.rs1) b) s = some e) :
    datapath i s = some (.ok e) := by
  have hcheck' : datapathCheck (controlVector i) (s.reg i.rs1) b (alu op (s.reg i.rs1) b).y s.pc = .ok () := hcheck
  simp [datapath, hb, hop, hcheck', hcommit]

theorem datapathCommit_lw (rd rs1 : RegIdx) (imm : BitVec 12) (f3 : BitVec 3) (rd2 : Option Word) (out : AluOut)
    (s : State) : datapathCommit (controlVector (.lw rd rs1 imm f3)) (.lw rd rs1 imm f3) rd2 out s =
      some (s.regEffect rd (s.memRead out.y.toNat)) := rfl

theorem datapathCommit_sw (rs1 rs2 : RegIdx) (hi : BitVec 7) (lo : BitVec 5) (f3 : BitVec 3) (v : Word) (out : AluOut)
    (s : State) : datapathCommit (controlVector (.sw rs1 rs2 hi lo f3)) (.sw rs1 rs2 hi lo f3) (some v) out s =
      some (s.memEffect out.y.toNat v) := rfl

/-- What a branch commits: the units before the pc multiplexer grant nothing and write nothing. -/
theorem datapathCommit_branch {i : Instr} {hi : BitVec 7} {lo : BitVec 5} (hb : i.format = .b) (hhi : i.immHi = some hi)
    (hlo : i.immLo = some lo) (rd2 : Option Word) (out : AluOut) (s : State) :
    datapathCommit (controlVector i) i rd2 out s =
      some (pcEffect (if branchCond i.funct3 out.zero then branchTarget s.pc hi lo else pcPlus4 s.pc)) := by
  cases i with
  | add | sub | and | or | addi | lw | sw => cases hb
  | beq | bne =>
    cases hhi
    cases hlo
    simp only [datapathCommit, controlVector_beq, controlVector_bne, nextPc_branch]
    split <;> rfl

/-- Settles O23: for the ALU instructions the units evaluate to the rule; for `lw` and `sw` the bounds check decides as the
index does; for a branch `Zero` says whether the registers are equal. -/
theorem datapathDoesWhatTheInstructionRulesSay : Obligations.DatapathDoesWhatTheInstructionRulesSay := by
  unfold Obligations.DatapathDoesWhatTheInstructionRulesSay
  intro i s
  cases i with
  | add | sub | and | or | addi => exact ⟨_, rfl, rfl⟩
  | lw rd rs1 imm f3 =>
    have hoff : imm.toNat ≤ 4095 := Nat.le_of_lt_succ imm.isLt
    cases h : s.loadIndex rs1 imm with
    | error err =>
      exact ⟨_, datapath_of_check_error (op := .add) rfl rfl (datapathCheck_of_checkIndex_error (.inl rfl) hoff h),
        (exec_lw_of_loadIndex_error h rd f3).symm⟩
    | ok a =>
      obtain rfl := adderSum_of_checkIndex_ok hoff h
      exact ⟨_, datapath_of_check_ok (op := .add) rfl rfl (datapathCheck_of_checkIndex_ok (.inl rfl) hoff h)
        (datapathCommit_lw ..), (exec_lw_of_loadIndex h rd f3).symm⟩
  | sw rs1 rs2 hi lo f3 =>
    have hoff : lo.toNat ≤ 4095 := by omega
    cases h : s.storeIndex rs1 lo with
    | error err =>
      exact ⟨_, datapath_of_check_error (op := .add) rfl rfl (datapathCheck_of_checkIndex_error (.inr rfl) hoff h),
        (exec_sw_of_storeIndex_error h rs2 hi f3).symm⟩
    | ok a =>
      obtain rfl := adderSum_of_checkIndex_ok hoff h
      exact ⟨_, datapath_of_check_ok (op := .add) rfl rfl (datapathCheck_of_checkIndex_ok (.inr rfl) hoff h)
        (datapathCommit_sw ..), (exec_sw_of_storeIndex h rs2 hi f3).symm⟩
  | beq rs1 rs2 hi lo =>
    refine ⟨_, datapath_of_check_ok (op := .sub) rfl rfl rfl (datapathCommit_branch rfl rfl rfl ..), ?_⟩
    simp [exec, execBeq, branchCond, alu, aluY, Instr.funct3, Instr.rs1]
  | bne rs1 rs2 hi lo =>
    refine ⟨_, datapath_of_check_ok (op := .sub) rfl rfl rfl (datapathCommit_branch rfl rfl rfl ..), ?_⟩
    simp [exec, execBne, branchCond, alu, aluY, Instr.funct3, Instr.rs1]

end Sys2Proof.Machine
